-- ==== Sys2Proof/Word.lean ====
section
/-!
DEFINITION. The word of the machine, its range, and the parameter of an instruction.

A word is a W-bit signed integer (00_scope.md R6). The spec computes on mathematical integers (R14) and reads a word by
its decimal digits (R13), never by its bits, so a word (a memory cell, a parameter value, the relative base, an input or
an output value) is an `Int`. That it fits W bits is the predicate `InW`, and the invariant of Safety.lean says every
word of a reachable state does (log 2).
-/
namespace Sys2Proof

/-- WMIN = -2^(W-1) (R7). -/
def wordMin (w : Nat) : Int := -((2 ^ (w - 1) : Nat) : Int)

/-- WMAX = 2^(W-1) - 1 (R7). -/
def wordMax (w : Nat) : Int := ((2 ^ (w - 1) : Nat) : Int) - 1

/-- inW(v): WMIN <= v <= WMAX (R14). -/
abbrev InW (w : Nat) (v : Int) : Prop := wordMin w ≤ v ∧ v ≤ wordMax w

/-- The three addressing modes (30_encoding.md R68): digits 0, 1 and 2. -/
inductive Mode where
  | position
  | immediate
  | relative
deriving DecidableEq, Repr

/-- A parameter: "a (raw value, addressing mode) pair read from Program at decode time" (R69). -/
structure Param where
  mode : Mode
  raw : Int
deriving DecidableEq, Repr

end Sys2Proof
end

