-- ==== Sys2Proof/Config.lean ====
section
/-!
DEFINITION. The parameters of an implementation (00_scope.md R6 to R12).

The spec fixes nothing else (R12) and leaves no value undefined (R98), so there is no free value. A machine's parameters
stand in `State.cfg` (log 1), so every statement about a state holds for every value of them.
-/
namespace Sys2Proof

/-- `OVF`: what ADD, MUL and ARB do when their exact result is not a word (R8). -/
inductive OverflowPolicy where
  /-- FAULT: the step fails with ArithmeticOverflow. -/
  | fault
  /-- WRAP: the result is reduced to W bits in two's complement. -/
  | wrap
deriving DecidableEq, Repr

/-- The parameters of one core. -/
structure Config where
  /-- `W`, the word width (R6). -/
  w : Nat
  /-- `OVF` (R8). -/
  ovf : OverflowPolicy
  /-- `ADDR_MAX`, the largest address of memory (R9). The spec states no upper bound, and any value is taken, above WMAX
  too (log 13, DESIGN CHOICE). -/
  addrMax : Nat
  /-- `STRICT`, whether leftover digits are an error (R10). -/
  strict : Bool
  /-- `INQ_CAP`, the capacity of the input queue; `none` is unbounded (R11). -/
  inqCap : Option Nat
deriving DecidableEq, Repr

/-- The defaults of R6 to R11: W = 64, OVF = FAULT, ADDR_MAX = WMAX, STRICT = true, INQ_CAP unbounded. -/
def Config.default : Config where
  w := 64
  ovf := .fault
  addrMax := (wordMax 64).toNat
  strict := true
  inqCap := none

/-- The least width at which 0 and 1, the results of LT and EQ (R119, R120), are words (log 4, DEDUCED). `ADDR_MAX`
is not bounded by WMAX (log 13, DESIGN CHOICE). -/
abbrev Config.wf (c : Config) : Prop := 2 ≤ c.w

end Sys2Proof
end

