-- ==== Sys2Proof/Machine/State.lean ====
section
/-!
DEFINITION. The state of one core: the tuple (M, ext, ip, rb, Q, L, es) of 10_state.md R20, with the machine's parameters
beside it (log 1), and the state after reset.
-/
namespace Sys2Proof.Machine

/-- Memory (R26): the cells that do not hold 0, addresses strictly rising. An unlisted address reads 0 (R44, 20_memory.md
R46). The machine has no bytes (20_memory.md R52), so a cell is a whole word (log 3). -/
abbrev Memory := List (Nat × Int)

/-- A failure kind with its info record (10_state.md R32, 60_exceptions.md R123). These are the machine's own failures: a
step that raises one answers a next state whose `es` holds it (60_exceptions.md R127). -/
inductive Failure where
  /-- The negative address. Raised by a mode-0 parameter, or a taken jump to a negative target. -/
  | invalidAddress (a : Int)
  /-- The opcode value, or trem(w, 100) of a negative word. -/
  | unknownOpcode (code : Int)
  /-- The index of the immediate parameter in a W role. -/
  | invalidWriteTarget (i : Nat)
  /-- The parameter index and the offending mode digit. -/
  | invalidMode (i m : Nat)
  /-- The negative sum rb + raw. -/
  | arithmeticConversion (a : Int)
  /-- The instruction word with leftover digits. -/
  | malformedInstruction (w : Int)
  /-- The exact result that does not fit. -/
  | arithmeticOverflow (r : Int)
  /-- The address above ADDR_MAX. -/
  | addressOutOfRange (a : Nat)
deriving DecidableEq, Repr

/-- The execution state (R30). -/
inductive ExecState where
  | continuing
  | awaitingMoreInput
  | producedOutput (v : Int)
  | halted
  /-- Failed(k, fip, info): `failure` is k with its info, `fip` the ip of the failing instruction (R30, R126). -/
  | failed (failure : Failure) (fip : Nat)
deriving DecidableEq, Repr

/-- One core (R20). -/
structure State where
  /-- The parameters of the machine, the model's own field: no step and no transaction writes it (log 1). -/
  cfg : Config
  /-- `M`, the memory (R26). -/
  mem : Memory
  /-- `ext`, the number of allocated cells (R27). -/
  ext : Nat
  /-- `ip`, the instruction pointer (R22, R23). -/
  ip : Nat
  /-- `rb`, the relative base (R24). -/
  rb : Int
  /-- `Q`, the input queue, oldest first (R28). -/
  inq : List Int
  /-- `L`, the output log, oldest first (R29). -/
  log : List Int
  /-- `es`, the execution state (R30). -/
  es : ExecState
deriving DecidableEq, Repr

/-- Faults of the host interface. There are none: each failure the spec describes is an entry into the state
`es = Failed(…)` (60_exceptions.md R127, R135), which is a next state, and the spec leaves no other stop (log 10). -/
inductive Fault where
deriving DecidableEq, Repr

/-- Refusals of the host interface. -/
inductive Refusal where
  /-- Raised only by an arm of `exec` whose instruction has no meaning yet; no arm does. Safe. -/
  | notModelled (mnemonic : String)
deriving DecidableEq, Repr

/-- What a step of this machine answers. -/
abbrev Outcome := Host.Outcome State Fault Refusal

/-- Right after reset: the core's only reset is construction (70_reset_and_hazards.md R145), here of the empty image with
no inputs, at the default parameters (R44). The empty image, and how a program comes to run, are log 7; the default
parameters are log 8. -/
def State.reset : State where
  cfg := Config.default
  mem := []
  ext := 0
  ip := 0
  rb := 0
  inq := []
  log := []
  es := .continuing

end Sys2Proof.Machine
end

