-- ==== Sys2Proof/Machine/Flags.lean ====
section
/-!
DEFINITION. The tests on results. The core has no flags and no condition codes (10_state.md R34): what another machine
would report in flags is here the overflow test of ADD, MUL and ARB, and the word LT and EQ write.
-/
namespace Sys2Proof.Machine

/-- wrapW(v): the unique word congruent to v modulo 2^W (00_scope.md R14). -/
def wrapW (c : Config) (v : Int) : Int := v.bmod (2 ^ c.w)

/-- arith(r): the exact result if it is a word; otherwise ArithmeticOverflow under FAULT, the reduced result under WRAP
(40_execution_cycle.md R103, 00_scope.md R8). -/
def arith (c : Config) (r : Int) : Except Failure Int :=
  if InW c.w r then .ok r
  else
    match c.ovf with
    | .fault => .error (.arithmeticOverflow r)
    | .wrap => .ok (wrapW c r)

/-- The result of a comparison: "the word 1 (true) or 0 (false)" (44_compare.md). -/
def truthWord (b : Bool) : Int := if b = true then 1 else 0

end Sys2Proof.Machine
end

