-- ==== Sys2Proof/Syntax.lean ====
section
/-!
DEFINITION. The instructions: one constructor per row of spec/opcode_table.json (30_encoding.md R67, R70, R82), each
with its parameters in order. Any mode may stand in any parameter: immediate mode in a W role decodes, and fails when the
parameter is resolved (R74).
-/
namespace Sys2Proof

/-- The ten instructions (R82). -/
inductive Instr where
  /-- ADD a, b, dest (opcode 1, R105). -/
  | add (a b dest : Param)
  /-- MUL a, b, dest (opcode 2, R106). -/
  | mul (a b dest : Param)
  /-- IN dest (opcode 3, R107). -/
  | inp (dest : Param)
  /-- OUT a (opcode 4, R108). -/
  | out (a : Param)
  /-- JT a, target (opcode 5, R117). -/
  | jt (a target : Param)
  /-- JF a, target (opcode 6, R118). -/
  | jf (a target : Param)
  /-- LT a, b, dest (opcode 7, R119). -/
  | lt (a b dest : Param)
  /-- EQ a, b, dest (opcode 8, R120). -/
  | eq (a b dest : Param)
  /-- ARB a (opcode 9, R121). -/
  | arb (a : Param)
  /-- HLT (opcode 99, R122). -/
  | hlt
deriving DecidableEq, Repr

/-- The parameters of an instruction, parameter 1 first. -/
def Instr.params : Instr → List Param
  | .add a b dest => [a, b, dest]
  | .mul a b dest => [a, b, dest]
  | .inp dest => [dest]
  | .out a => [a]
  | .jt a target => [a, target]
  | .jf a target => [a, target]
  | .lt a b dest => [a, b, dest]
  | .eq a b dest => [a, b, dest]
  | .arb a => [a]
  | .hlt => []

/-- The width of an instruction in words, "including the opcode word itself" (R65). -/
def Instr.width (i : Instr) : Nat := i.params.length + 1

end Sys2Proof
end

