-- ==== Sys2Proof/WellFormed.lean ====
section
/-!
DEFINITION. When an instruction's words exist on a machine: each raw value is a whole W-bit signed word (30_encoding.md
R69). Modes need no check, since `Mode` has the three legal values only (R68), and the digits of the instruction word are
fixed by the constructor and the modes (R84).
-/
namespace Sys2Proof

/-- A raw value is a word of the machine (R69). -/
abbrev Param.wf (c : Config) (p : Param) : Prop := InW c.w p.raw

/-- Every parameter of the instruction has a raw value that is a word. -/
abbrev Instr.wf (c : Config) (i : Instr) : Prop := ∀ p ∈ i.params, p.wf c

end Sys2Proof
end

