-- ==== Sys2Proof/Decode.lean ====
section
/-!
DEFINITION. The decoder, total on any words and rejecting by name, and the encoder written from the same tables.

An instruction word is read by its decimal digits (30_encoding.md R65 to R68, 00_scope.md R13). The checks come in the
order of 40_execution_cycle.md R88 to R90: opcode, mode digits, leftover digits.
-/
namespace Sys2Proof

/-! ### The opcode table -/

/-- The operation an instruction word selects (R72). -/
inductive Opcode where
  | add | mul | inp | out | jt | jf | lt | eq | arb | hlt
deriving DecidableEq, Repr

/-- The opcode's number, the low two decimal digits (R67). -/
def Opcode.code : Opcode → Nat
  | .add => 1
  | .mul => 2
  | .inp => 3
  | .out => 4
  | .jt => 5
  | .jf => 6
  | .lt => 7
  | .eq => 8
  | .arb => 9
  | .hlt => 99

/-- The recognised set of R72; every other value is illegal. -/
def Opcode.ofCode : Nat → Option Opcode
  | 1 => some .add
  | 2 => some .mul
  | 3 => some .inp
  | 4 => some .out
  | 5 => some .jt
  | 6 => some .jf
  | 7 => some .lt
  | 8 => some .eq
  | 9 => some .arb
  | 99 => some .hlt
  | _ => none

/-- NPARAMS: the number of parameters (R88), which the opcode alone fixes (R77). -/
def Opcode.nparams : Opcode → Nat
  | .add => 3
  | .mul => 3
  | .inp => 1
  | .out => 1
  | .jt => 2
  | .jf => 2
  | .lt => 3
  | .eq => 3
  | .arb => 1
  | .hlt => 0

/-- The instruction of an opcode, given its parameter i for each i. -/
def Opcode.instr (op : Opcode) (p : Nat → Param) : Instr :=
  match op with
  | .add => .add (p 1) (p 2) (p 3)
  | .mul => .mul (p 1) (p 2) (p 3)
  | .inp => .inp (p 1)
  | .out => .out (p 1)
  | .jt => .jt (p 1) (p 2)
  | .jf => .jf (p 1) (p 2)
  | .lt => .lt (p 1) (p 2) (p 3)
  | .eq => .eq (p 1) (p 2) (p 3)
  | .arb => .arb (p 1)
  | .hlt => .hlt

/-- The opcode of an instruction. -/
def Instr.opcode : Instr → Opcode
  | .add _ _ _ => .add
  | .mul _ _ _ => .mul
  | .inp _ => .inp
  | .out _ => .out
  | .jt _ _ => .jt
  | .jf _ _ => .jf
  | .lt _ _ _ => .lt
  | .eq _ _ _ => .eq
  | .arb _ => .arb
  | .hlt => .hlt

/-! ### Decimal digits and modes -/

/-- digit(w, k) = (w div 10^k) mod 10 (R13). -/
def digit (w k : Nat) : Nat := w / 10 ^ k % 10

/-- The mode a digit stands for; 3 to 9 are illegal (R68, R73). -/
def Mode.ofDigit : Nat → Option Mode
  | 0 => some .position
  | 1 => some .immediate
  | 2 => some .relative
  | _ => none

/-- The digit of a mode (R68). -/
def Mode.digit : Mode → Nat
  | .position => 0
  | .immediate => 1
  | .relative => 2

/-! ### The decoder -/

/-- Why an instruction word is rejected (30_encoding.md R76). -/
inductive DecodeError where
  /-- A negative word, or an opcode outside the recognised set (R71, R72). -/
  | unknownOpcode (code : Int)
  /-- The mode digit `m` of parameter `i` is 3 to 9 (R73). -/
  | invalidMode (i m : Nat)
  /-- Leftover digits under STRICT (R75). -/
  | malformedInstruction (w : Int)
deriving DecidableEq, Repr

/-- What the instruction word alone decides: the opcode and the modes, parameter 1 first (R77). -/
structure Head where
  op : Opcode
  modes : List Mode
deriving DecidableEq, Repr

/-- Phase 3: the mode digits of parameters `i`, `i + 1`, … (`n` of them), lowest index first (R89). -/
def decodeModes (w i : Nat) : Nat → Except DecodeError (List Mode)
  | 0 => .ok []
  | n + 1 =>
    match Mode.ofDigit (digit w (i + 1)) with
    | none => .error (.invalidMode i (digit w (i + 1)))
    | some m =>
      match decodeModes w (i + 1) n with
      | .error e => .error e
      | .ok ms => .ok (m :: ms)

/-- Phases 2 to 4 on the instruction word (R88, R89, R90). The code of a negative word is trem(w, 100), which is 0 for a
multiple of 100 (log 5). -/
def decodeHead (strict : Bool) (w : Int) : Except DecodeError Head :=
  if w < 0 then .error (.unknownOpcode (w.tmod 100))
  else
    match Opcode.ofCode (w.toNat % 100) with
    | none => .error (.unknownOpcode (w.toNat % 100 : Nat))
    | some op =>
      match decodeModes w.toNat 1 op.nparams with
      | .error e => .error e
      | .ok ms =>
        if strict = true ∧ w.toNat / 10 ^ (op.nparams + 2) ≠ 0 then .error (.malformedInstruction w)
        else .ok ⟨op, ms⟩

/-- The number of parameter words that follow (R77). -/
def Head.nparams (h : Head) : Nat := h.op.nparams

/-- The instruction of a decoded word and its raw values, raw 1 first (R69). -/
def Head.instr (h : Head) (raws : List Int) : Instr :=
  h.op.instr fun i => ⟨h.modes.getD (i - 1) .position, raws.getD (i - 1) 0⟩

/-- The decoder over a sequence of words: the instruction at its front and the words after it. A word beyond the end
reads 0, as in memory (40_execution_cycle.md R91, 20_memory.md R46; log 12). -/
def decode (strict : Bool) (ws : List Int) : Except DecodeError (Instr × List Int) :=
  match decodeHead strict (ws.headD 0) with
  | .error e => .error e
  | .ok h => .ok (h.instr (ws.tail.take h.nparams), ws.drop (h.nparams + 1))

/-! ### The encoder -/

/-- The mode digits of the parameters, the first at 10^k: 100·A + 1000·B + 10000·C from k = 2 (R84). -/
def encodeModes (k : Nat) : List Param → Nat
  | [] => 0
  | p :: ps => p.mode.digit * 10 ^ k + encodeModes (k + 1) ps

/-- The instruction word op + 100·m1 + 1000·m2 + 10000·m3, with no leftover digits (R84). -/
def encodeHead (i : Instr) : Nat := i.opcode.code + encodeModes 2 i.params

/-- The words of an instruction: the instruction word, then the raw values (R84). -/
def encode (i : Instr) : List Int := (encodeHead i : Int) :: i.params.map Param.raw

/-! ### Assembly (R81, R82; notation only, the spec's decision D27) -/

/-- The mnemonic of an instruction (R82). -/
def Instr.mnemonic : Instr → String
  | .add _ _ _ => "ADD"
  | .mul _ _ _ => "MUL"
  | .inp _ => "IN"
  | .out _ => "OUT"
  | .jt _ _ => "JT"
  | .jf _ _ => "JF"
  | .lt _ _ _ => "LT"
  | .eq _ _ _ => "EQ"
  | .arb _ => "ARB"
  | .hlt => "HLT"

/-- An operand: `[n]`, `n`, `[rb+n]` or `[rb-n]` (R81). -/
def Param.text (p : Param) : String :=
  match p.mode with
  | .position => "[" ++ toString p.raw ++ "]"
  | .immediate => toString p.raw
  | .relative => if p.raw < 0 then "[rb-" ++ toString (-p.raw) ++ "]" else "[rb+" ++ toString p.raw ++ "]"

/-- A line of assembly: an instruction, or the directive that places one raw word (R81, R83). -/
inductive Line where
  | instr (i : Instr)
  | word (v : Int)
deriving DecidableEq, Repr

/-- The text of a line, without the comment that gives its address (R81). -/
def Line.text : Line → String
  | .instr i =>
    match i.params.map Param.text with
    | [] => i.mnemonic
    | op :: ops => i.mnemonic ++ " " ++ String.intercalate ", " (op :: ops)
  | .word v => ".word " ++ toString v

/-- The words of a line (R84). -/
def Line.words : Line → List Int
  | .instr i => encode i
  | .word v => [v]

/-- The image of a program: the words of its lines in order, the first at address 0 (R80, R84). -/
def assemble (ls : List Line) : List Int := ls.flatMap Line.words

/-! ### Words given as bits, for the host's opcode-table questions -/

/-- The word whose `w` bits, in two's complement (00_scope.md R7), are the number `n < 2^w`. -/
def wordOfBits (w n : Nat) : Int := if n < 2 ^ (w - 1) then (n : Int) else (n : Int) - (2 ^ w : Nat)

/-- The first `k` words of an instruction whose low `nbits` bits are those of `n` and whose other bits are 0: word 0 is the
lowest `w` bits, and a later word's bits count on from it (log 11). -/
def tableWords (w nbits n : Nat) : Nat → List Int
  | 0 => []
  | k + 1 => wordOfBits w (n % 2 ^ nbits % 2 ^ w) :: tableWords w (nbits - w) (n % 2 ^ nbits / 2 ^ w) k

/-- The longest instruction is four words (R65). -/
def maxWidth : Nat := 4

/-- The instruction this decoder reads from table bits, on a machine with the default parameters. -/
def decodeTableWord (nbits w : Nat) : Option Instr :=
  match decode Config.default.strict (tableWords Config.default.w nbits w maxWidth) with
  | .error _ => none
  | .ok (i, _) => some i

end Sys2Proof
end

