-- ==== Sys2Proof/Machine/Ops.lean ====
section
/-!
DEFINITION. The named operations over memory and the state elements, and failure entry.

Phases 1 to 7 of a step change no state and end in `Except Failure State`; `settle` turns that into the step's answer
(40_execution_cycle.md R85, R96; 60_exceptions.md R127).
-/
namespace Sys2Proof.Machine

/-! ### Memory -/

/-- The canonical form: addresses strictly rising, no listed cell equal to what an unlisted address reads as (0). -/
abbrev Memory.wf (m : Memory) : Prop := m.Pairwise (fun p q => p.1 < q.1) ∧ ∀ p ∈ m, p.2 ≠ 0

/-- MemRead(a, 1): the stored word, or 0 where nothing is listed (20_memory.md R46). -/
def Memory.read : Memory → Nat → Int
  | [], _ => 0
  | p :: m, a => if p.1 = a then p.2 else Memory.read m a

/-- The memory with no cell listed at `a`. -/
def Memory.erase (m : Memory) (a : Nat) : Memory := m.filter fun p => p.1 ≠ a

/-- The memory with the cell (a, v) before the first listed address above `a`. -/
def Memory.insert (a : Nat) (v : Int) : Memory → Memory
  | [] => [(a, v)]
  | p :: m => if a < p.1 then (a, v) :: p :: m else p :: Memory.insert a v m

/-- M[a] <- v, in canonical form (20_memory.md R47). -/
def Memory.write (m : Memory) (a : Nat) (v : Int) : Memory :=
  if v = 0 then m.erase a else Memory.insert a v (m.erase a)

/-- The memory that holds the words `vs` at `a`, `a + 1`, … and 0 elsewhere (10_state.md R44). -/
def Memory.ofImage (a : Nat) : List Int → Memory
  | [] => []
  | v :: vs => if v = 0 then Memory.ofImage (a + 1) vs else (a, v) :: Memory.ofImage (a + 1) vs

/-! ### State elements -/

/-- M[a] (20_memory.md R46). A read changes no state. -/
def State.readWord (s : State) (a : Nat) : Int := s.mem.read a

/-- MemWrite(a, 1, v) for a checked address: the store and the growth of `ext` (20_memory.md R47). -/
def State.writeWord (s : State) (a : Nat) (v : Int) : State :=
  { s with mem := s.mem.write a v, ext := max s.ext (a + 1) }

/-- rb <- r (45_system.md R121). -/
def State.setRb (s : State) (r : Int) : State := { s with rb := r }

/-- pop(Q): the front is removed (42_io.md R107). -/
def State.popInput (s : State) : State := { s with inq := s.inq.tail }

/-- append(L, v) (42_io.md R108). -/
def State.appendLog (s : State) (v : Int) : State := { s with log := s.log ++ [v] }

/-- The last two effects of every commit: ip <- ip_next, es <- es_next (40_execution_cycle.md R96). -/
def State.retire (s : State) (ipNext : Nat) (esNext : ExecState) : State := { s with ip := ipNext, es := esNext }

/-! ### Failure entry and suspension -/

/-- Failure entry: `es` records the kind, its info and the failing ip, and nothing else changes (60_exceptions.md R126,
R127; 00_scope.md R17). There is no return from a failure (R129, R135). -/
def State.fail (s : State) (k : Failure) : State := { s with es := .failed k s.ip }

/-- `suspend AwaitingMoreInput`: no effect except `es` (00_scope.md R17, 42_io.md R107). -/
def State.suspend (s : State) : State := { s with es := .awaitingMoreInput }

/-- Halted and Failed are terminal, the other three are not (10_state.md R31). -/
def ExecState.terminal : ExecState → Bool
  | .continuing => false
  | .awaitingMoreInput => false
  | .producedOutput _ => false
  | .halted => true
  | .failed _ _ => true

/-- The end of a step from `s`: the committed state, or the failure raised by one of phases 1 to 7 (40_execution_cycle.md
R85, R97). -/
def settle (s : State) : Except Failure State → Outcome
  | .ok t => .next t
  | .error k => .next (s.fail k)

/-- The failure a rejected instruction word raises (30_encoding.md R71, R72, R73, R75). -/
def failureOfDecode : DecodeError → Failure
  | .unknownOpcode code => .unknownOpcode code
  | .invalidMode i m => .invalidMode i m
  | .malformedInstruction w => .malformedInstruction w

end Sys2Proof.Machine
end

