-- ==== Sys2Proof/Machine/Operands.lean ====
section
/-!
DEFINITION. The parameter resolver: address translation, the read and write paths of the mode multiplexer, and the jump
target (20_memory.md R57; 40_execution_cycle.md R92, R93, R94, R103).
-/
namespace Sys2Proof.Machine

/-- The range check of an exact address `a` (20_memory.md R49 to R51): negative raises `neg a`, above ADDR_MAX raises
AddressOutOfRange. With ADDR_MAX above WMAX an address that is no W-bit value passes (log 13, DESIGN CHOICE). -/
def checkAddress (c : Config) (neg : Int → Failure) (a : Int) : Except Failure Nat :=
  if a < 0 then .error (neg a)
  else if (c.addrMax : Int) < a then .error (.addressOutOfRange a.toNat)
  else .ok a.toNat

/-- EA(0, raw): the raw value is the address (20_memory.md R57). -/
def positionAddress (s : State) (raw : Int) : Except Failure Nat :=
  checkAddress s.cfg .invalidAddress raw

/-- EA(2, raw): rb + raw, formed exactly (20_memory.md R57, R51). -/
def relativeAddress (s : State) (raw : Int) : Except Failure Nat :=
  checkAddress s.cfg .arithmeticConversion (s.rb + raw)

/-- The word at a resolved address. -/
def readAt (s : State) : Except Failure Nat → Except Failure Int
  | .ok a => .ok (s.readWord a)
  | .error k => .error k

/-- resolve_read(m, raw) (40_execution_cycle.md R92). -/
def resolveRead (s : State) (p : Param) : Except Failure Int :=
  match p.mode with
  | .position => readAt s (positionAddress s p.raw)
  | .immediate => .ok p.raw
  | .relative => readAt s (relativeAddress s p.raw)

/-- resolve_write_address(m, raw) of parameter `i` (40_execution_cycle.md R93). -/
def resolveWriteAddress (s : State) (i : Nat) (p : Param) : Except Failure Nat :=
  match p.mode with
  | .position => positionAddress s p.raw
  | .immediate => .error (.invalidWriteTarget i)
  | .relative => relativeAddress s p.raw

/-- target(t): a taken jump to a negative target fails; nothing else is checked (40_execution_cycle.md R103). -/
def jumpTarget (t : Int) : Except Failure Nat :=
  if t < 0 then .error (.invalidAddress t) else .ok t.toNat

end Sys2Proof.Machine
end

