-- ==== Sys2Proof/Machine/Arithmetic.lean ====
section
/-!
DEFINITION. The instructions of format F3 with roles R, R, W share `storeResult`; here ADD and MUL (41_arithmetic.md).
-/
namespace Sys2Proof.Machine

/-- Phases 6 to 8 of an instruction that reads `a` and `b`, computes a word and writes it to `dest`: the parameters are
resolved in order, and the write commits after every read (40_execution_cycle.md R94, R96; 20_memory.md R62). -/
def storeResult (f : Int → Int → Except Failure Int) (a b dest : Param) (s : State) : Outcome :=
  settle s do
    let v₁ ← resolveRead s a
    let v₂ ← resolveRead s b
    let d ← resolveWriteAddress s 3 dest
    let r ← f v₁ v₂
    pure ((s.writeWord d r).retire (s.ip + 4) .continuing)

/-- ADD: r <- arith(v_1 + v_2) (R105). -/
def execAdd (a b dest : Param) (s : State) : Outcome :=
  storeResult (fun v₁ v₂ => arith s.cfg (v₁ + v₂)) a b dest s

/-- MUL: r <- arith(v_1 * v_2) (R106). -/
def execMul (a b dest : Param) (s : State) : Outcome :=
  storeResult (fun v₁ v₂ => arith s.cfg (v₁ * v₂)) a b dest s

end Sys2Proof.Machine
end

