-- ==== Sys2Proof/Machine/Compare.lean ====
section
/-!
DEFINITION. LT and EQ (44_compare.md). The comparison is signed and cannot overflow.
-/
namespace Sys2Proof.Machine

/-- LT: r <- (v_1 < v_2) ? 1 : 0 (R119). -/
def execLt (a b dest : Param) (s : State) : Outcome :=
  storeResult (fun v₁ v₂ => .ok (truthWord (decide (v₁ < v₂)))) a b dest s

/-- EQ: r <- (v_1 = v_2) ? 1 : 0 (R120). -/
def execEq (a b dest : Param) (s : State) : Outcome :=
  storeResult (fun v₁ v₂ => .ok (truthWord (decide (v₁ = v₂)))) a b dest s

end Sys2Proof.Machine
end

