-- ==== Sys2Proof/Machine/InputOutput.lean ====
section
/-!
DEFINITION. IN and OUT (42_io.md).
-/
namespace Sys2Proof.Machine

/-- Phases 7 and 8 of IN, the destination `d` resolved: an empty queue suspends, otherwise its front goes to M[d]
(R107). -/
def takeInput (d : Nat) (s : State) : State :=
  match s.inq with
  | [] => s.suspend
  | x :: _ => (s.popInput.writeWord d x).retire (s.ip + 2) .continuing

/-- IN: the destination is resolved before the queue is examined (R107, 40_execution_cycle.md R94). -/
def execInp (dest : Param) (s : State) : Outcome :=
  settle s do
    let d ← resolveWriteAddress s 1 dest
    pure (takeInput d s)

/-- OUT: the value goes to the log and is reported, and ip is advanced before the suspension (R108). -/
def execOut (a : Param) (s : State) : Outcome :=
  settle s do
    let v₁ ← resolveRead s a
    pure ((s.appendLog v₁).retire (s.ip + 2) (.producedOutput v₁))

end Sys2Proof.Machine
end

