-- ==== Sys2Proof/Machine/Jumps.lean ====
section
/-!
DEFINITION. JT and JF (43_jumps.md). Both parameters are resolved as reads; the target is checked only when the jump is
taken.
-/
namespace Sys2Proof.Machine

/-- Phases 6 to 8 of a jump taken when `taken v_1`: ip_next is the target, or ip + 3 (R117, R118). -/
def jumpWhen (taken : Int → Bool) (a target : Param) (s : State) : Outcome :=
  settle s do
    let v₁ ← resolveRead s a
    let v₂ ← resolveRead s target
    let ipNext ← if taken v₁ = true then jumpTarget v₂ else pure (s.ip + 3)
    pure (s.retire ipNext .continuing)

/-- JT: taken if v_1 ≠ 0 (R117). -/
def execJt (a target : Param) (s : State) : Outcome := jumpWhen (fun v => decide (v ≠ 0)) a target s

/-- JF: taken if v_1 = 0 (R118). -/
def execJf (a target : Param) (s : State) : Outcome := jumpWhen (fun v => decide (v = 0)) a target s

end Sys2Proof.Machine
end

