-- ==== Sys2Proof/Machine/System.lean ====
section
/-!
DEFINITION. ARB and HLT (45_system.md).
-/
namespace Sys2Proof.Machine

/-- ARB: rb <- arith(rb + v_1), the parameter resolved with the old rb (R121). -/
def execArb (a : Param) (s : State) : Outcome :=
  settle s do
    let v₁ ← resolveRead s a
    let r ← arith s.cfg (s.rb + v₁)
    pure ((s.setRb r).retire (s.ip + 2) .continuing)

/-- HLT: ip <- ip + 1, es <- Halted (R122). -/
def execHlt (s : State) : Outcome := settle s (pure (s.retire (s.ip + 1) .halted))

end Sys2Proof.Machine
end

