-- ==== Sys2Proof/Machine/Fetch.lean ====
section
/-!
DEFINITION. Phases 1 to 5 of a step: fetch the instruction word, decode it, fetch the raw parameters
(40_execution_cycle.md R87 to R91). And the placing of an instruction's words where the next step fetches them.
-/
namespace Sys2Proof.Machine

/-- Fetch(a): the word at `a`, or AddressOutOfRange above ADDR_MAX (20_memory.md R48, R50). -/
def fetchWord (s : State) (a : Nat) : Except Failure Int :=
  if s.cfg.addrMax < a then .error (.addressOutOfRange a) else .ok (s.readWord a)

/-- Phase 5: the raw values at `a`, `a + 1`, … (`n` of them), lowest address first (R91). -/
def fetchRaws (s : State) (a : Nat) : Nat → Except Failure (List Int)
  | 0 => .ok []
  | n + 1 =>
    match fetchWord s a with
    | .error k => .error k
    | .ok raw =>
      match fetchRaws s (a + 1) n with
      | .error k => .error k
      | .ok raws => .ok (raw :: raws)

/-- Phases 1 to 5: the instruction at ip, or the first failure in phase order (R87 to R91, 60_exceptions.md R131). -/
def fetchInstr (s : State) : Except Failure Instr :=
  match fetchWord s s.ip with
  | .error k => .error k
  | .ok w =>
    match decodeHead s.cfg.strict w with
    | .error e => .error (failureOfDecode e)
    | .ok h =>
      match fetchRaws s (s.ip + 1) h.nparams with
      | .error k => .error k
      | .ok raws => .ok (h.instr raws)

/-- The words `vs` stored at `a`, `a + 1`, …, as far as memory reaches. -/
def State.placeWords (s : State) (a : Nat) : List Int → State
  | [] => s
  | v :: vs => if s.cfg.addrMax < a then s else (s.writeWord a v).placeWords (a + 1) vs

/-- The state with a terminal `es` set back to Continuing, so that the next step fetches (40_execution_cycle.md R86). Only
the loading of a program from outside does this; no instruction and no host transaction can (60_exceptions.md R129). -/
def State.revive (s : State) : State := if s.es.terminal = true then { s with es := .continuing } else s

end Sys2Proof.Machine
end

