-- ==== Sys2Proof/Machine/Step.lean ====
section
/-!
DEFINITION. One step (40_execution_cycle.md R85, R103).
-/
namespace Sys2Proof.Machine

/-- One step: the terminal check (R86), phases 1 to 5, then the instruction's phases 6 to 8. -/
def step (s : State) : Host.Outcome State Fault Refusal :=
  if s.es.terminal = true then .next s
  else
    match fetchInstr s with
    | .error k => .next (s.fail k)
    | .ok i => exec i s

/-- The state with an instruction's words placed at ip: the load of a program from outside the machine (log 7). -/
def State.withFetchWord (s : State) (nbits w : Nat) : State :=
  (s.placeWords s.ip (tableWords s.cfg.w nbits w maxWidth)).revive

end Sys2Proof.Machine
end

