-- ==== Sys2Proof/Machine/Transactions.lean ====
section
/-!
DEFINITION. The host's transactions (10_state.md R37 to R43, 40_execution_cycle.md R99 to R101). Each is atomic with
respect to steps (60_exceptions.md R134): a function from the state between two steps to the next one. `none` is a refused
transaction, which changes nothing.
-/
namespace Sys2Proof.Machine

/-! ### Construction (R38, R44, R145) -/

/-- `construct(image, inputs)` on a machine with parameters `c`: refused unless every element is a word and the image fits
(R38); otherwise the reset values of R44. The length of `inputs` is not checked against INQ_CAP (log 6). -/
def construct (c : Config) (image inputs : List Int) : Option State :=
  if (∀ v ∈ image, InW c.w v) ∧ (∀ v ∈ inputs, InW c.w v) ∧ image.length ≤ c.addrMax + 1 then
    some
      { cfg := c
        mem := Memory.ofImage 0 image
        ext := image.length
        ip := 0
        rb := 0
        inq := inputs
        log := []
        es := .continuing }
  else none

/-! ### Input and output (R39, R42) -/

/-- The input queue holds INQ_CAP values (R39). An over-full queue counts as full (log 6). -/
def queueFull (s : State) : Bool :=
  match s.cfg.inqCap with
  | none => false
  | some cap => decide (cap ≤ s.inq.length)

/-- `push_input(v)`: Q <- Q ++ [v], in every execution state; refused when the queue is full or v is not a word (R39). -/
def pushInput (v : Int) (s : State) : Option State :=
  if InW s.cfg.w v ∧ queueFull s = false then some { s with inq := s.inq ++ [v] } else none

/-- `drain_output_log()`: returns L and sets L <- [], in every execution state (R42). -/
def drainOutputLog (s : State) : State × List Int := ({ s with log := [] }, s.log)

/-! ### Step and run (R40, R41) -/

/-- The state after a step. A step of this machine always answers `next`. -/
def stepped (s : State) : State :=
  match step s with
  | .next t => t
  | .fault _ => s
  | .refused _ => s

/-- `step() -> es` (R40, R97). -/
def stepTransaction (s : State) : State × ExecState := (stepped s, (stepped s).es)

/-- The loop of `run()`: step, and again while the step yields Continuing (R99), for at most `fuel` steps. Out of fuel is
no result (R101). -/
def runLoop : Nat → State → Option State
  | 0, _ => none
  | fuel + 1, s => if (stepped s).es = .continuing then runLoop fuel (stepped s) else some (stepped s)

/-- `run()` under fuel: the terminal check, then the loop (R99). -/
def runFor (fuel : Nat) (s : State) : Option State := if s.es.terminal = true then some s else runLoop fuel s

/-- The loop of `run()` as a relation: the closure of `step` up to its stop condition (R101). -/
inductive RunLoop : State → State → Prop where
  | stop {s t : State} (h : step s = .next t) (hes : t.es ≠ .continuing) : RunLoop s t
  | again {s u t : State} (h : step s = .next u) (hes : u.es = .continuing) (rest : RunLoop u t) : RunLoop s t

/-- `run()` started in `s` returns in `t` (R99). -/
def RunsTo (s t : State) : Prop := (s.es.terminal = true ∧ t = s) ∨ (s.es.terminal = false ∧ RunLoop s t)

/-- The batch caller's loop: `run` again while it returns ProducedOutput, at most `runs` times (42_io.md R113). -/
def runWhileOutput (fuel : Nat) : Nat → State → Option State
  | 0, _ => none
  | runs + 1, s =>
    match runFor fuel s with
    | none => none
    | some t =>
      match t.es with
      | .continuing => some t
      | .awaitingMoreInput => some t
      | .producedOutput _ => runWhileOutput fuel runs t
      | .halted => some t
      | .failed _ _ => some t

/-- The batch protocol: run to Halted, Failed or AwaitingMoreInput, then drain the log (42_io.md R113). -/
def runBatch (fuel runs : Nat) (s : State) : Option (State × List Int) :=
  (runWhileOutput fuel runs s).map drainOutputLog

/-! ### Inspection (R43) -/

/-- `peek(a)`: M[a] for 0 <= a <= ADDR_MAX, refused otherwise. -/
def peek (a : Int) (s : State) : Option Int :=
  if 0 ≤ a ∧ a ≤ s.cfg.addrMax then some (s.readWord a.toNat) else none

/-- `dump()`: the words M[0] to M[ext-1]. -/
def dump (s : State) : List Int := (List.range s.ext).map s.readWord

/-- `status()`: es. -/
def status (s : State) : ExecState := s.es

/-! ### The transactions on a built core as one interface (R37) -/

/-- The transactions that always return. `run` need not (R101): it is `RunsTo`, a sequence of steps. -/
inductive Transaction where
  | pushInput (v : Int)
  | step
  | drainOutputLog
  | peek (a : Int)
  | dump
  | status
deriving DecidableEq, Repr

/-- What a transaction returns. -/
inductive Response where
  | accepted
  | executionState (es : ExecState)
  | word (v : Int)
  | words (vs : List Int)
deriving DecidableEq, Repr

/-- One transaction: the new state and the response, or `none` where it is refused. -/
def transact (t : Transaction) (s : State) : Option (State × Response) :=
  match t with
  | .pushInput v => (Machine.pushInput v s).map fun s' => (s', .accepted)
  | .step => some ((stepTransaction s).1, .executionState (stepTransaction s).2)
  | .drainOutputLog => some ((Machine.drainOutputLog s).1, .words (Machine.drainOutputLog s).2)
  | .peek a => (Machine.peek a s).map fun v => (s, .word v)
  | .dump => some (s, .words (Machine.dump s))
  | .status => some (s, .executionState (Machine.status s))

/-! ### The status word (R33, 60_exceptions.md R124) -/

/-- The kind code of a failure (60_exceptions.md R124). -/
def Failure.kindCode : Failure → Nat
  | .invalidAddress _ => 1
  | .unknownOpcode _ => 2
  | .invalidWriteTarget _ => 3
  | .invalidMode _ _ => 4
  | .arithmeticConversion _ => 5
  | .malformedInstruction _ => 6
  | .arithmeticOverflow _ => 7
  | .addressOutOfRange _ => 8

/-- The info record of a failure, as numbers (10_state.md R32). -/
def Failure.info : Failure → List Int
  | .invalidAddress a => [a]
  | .unknownOpcode code => [code]
  | .invalidWriteTarget i => [i]
  | .invalidMode i m => [i, m]
  | .arithmeticConversion a => [a]
  | .malformedInstruction w => [w]
  | .arithmeticOverflow r => [r]
  | .addressOutOfRange a => [a]

/-- What the status word holds beside the status number: nothing, the output value, or the failure's code, fip and info. -/
inductive StatusDetail where
  | nothing
  | value (v : Int)
  | failure (code fip : Nat) (info : List Int)
deriving DecidableEq, Repr

/-- The status word (R33). -/
def statusWord (s : State) : Nat × StatusDetail :=
  match s.es with
  | .continuing => (0, .nothing)
  | .awaitingMoreInput => (1, .nothing)
  | .producedOutput v => (2, .value v)
  | .halted => (3, .nothing)
  | .failed k fip => (4, .failure k.kindCode fip k.info)

end Sys2Proof.Machine
end

