-- ==== Sys2Proof/Machine/Driver.lean ====
section
/-!
DEFINITION. The composition driver, a host program outside the core (60_exceptions.md R140 to R143): a ring of cores that
share nothing, run in strict round-robin order, with each output pushed to the next core's queue. What the spec leaves
open (R143) is a parameter here.
-/
namespace Sys2Proof.Machine

/-- A ring of cores, each with its own state (R140). -/
structure Ring where
  cores : List State
  /-- The instance whose turn it is. -/
  turn : Nat
  /-- The instance whose `run` was the last to reach Halted. -/
  lastHalted : Option Nat
  /-- The driver's policy has given up (R143). -/
  gaveUp : Bool
deriving DecidableEq, Repr

/-- Which instance "the last instance to halt" means (R143). -/
inductive LastInstance where
  /-- Instance N-1. -/
  | highestIndex
  /-- The instance that halted last in time. -/
  | lastInTime
deriving DecidableEq, Repr

/-- What the driver's policy knows of one instance: its status number and its outputs. Memory, ip, rb and queue are not
among it, since values cross between instances only "from one's output to another's input" (20_memory.md R64). -/
structure InstanceReport where
  status : Nat
  outputs : List Int
deriving DecidableEq, Repr

/-- What the driver's policy does. It can push values to instances' queues and choose the next turn, and cannot touch
anything else of an instance (20_memory.md R64, R140). -/
structure DriverReaction where
  /-- The values to push, in order, each with the instance it goes to. -/
  pushes : List (Nat × Int)
  /-- The instance whose turn is next. -/
  next : Nat
  /-- The driver runs no further turn. -/
  giveUp : Bool
deriving DecidableEq, Repr

/-- The driver's open points (R143). They are the host's and no part of a core's state (log 9). -/
structure DriverParams where
  /-- DRIVER_SIGNAL0, the first instance's second input. -/
  signal0 : Int
  /-- DRIVER_POLICY, what the driver does when `run` returned AwaitingMoreInput or Failed for the given instance. -/
  policy : Nat → List InstanceReport → DriverReaction
  /-- The meaning of "the last instance to halt". -/
  last : LastInstance

/-- The inputs instance `i` is constructed with: its phase setting, and for the first instance the first signal (R141). -/
def seedInputs (p : DriverParams) (i : Nat) (phase : Int) : List Int :=
  if i = 0 then [phase, p.signal0] else [phase]

/-- The instances `i`, `i + 1`, …, each from its image and phase; `none` if a construction is refused (R38). -/
def buildCores (c : Config) (p : DriverParams) (i : Nat) : List (List Int × Int) → Option (List State)
  | [] => some []
  | (image, phase) :: rest =>
    match construct c image (seedInputs p i phase) with
    | none => none
    | some s => (buildCores c p (i + 1) rest).map (s :: ·)

/-- The ring before its first turn (R141). -/
def buildRing (c : Config) (p : DriverParams) (seeds : List (List Int × Int)) : Option Ring :=
  (buildCores c p 0 seeds).map fun cores => ⟨cores, 0, none, false⟩

/-- The instance after `i` in the ring, (i+1) mod N (R141). -/
def Ring.after (r : Ring) (i : Nat) : Nat := (i + 1) % r.cores.length

/-- Instance `i` replaced by `s`. -/
def Ring.setCore (r : Ring) (i : Nat) (s : State) : Ring := { r with cores := r.cores.set i s }

/-- The turn passes to the next instance. -/
def Ring.advance (r : Ring) : Ring := { r with turn := r.after r.turn }

/-- push_input of `v` on instance `i`; a refused push changes nothing (10_state.md R39, log 9). -/
def Ring.push (r : Ring) (i : Nat) (v : Int) : Ring :=
  match r.cores[i]? with
  | none => r
  | some s =>
    match pushInput v s with
    | none => r
    | some s' => r.setCore i s'

/-- push_input of each value on its instance, in order. -/
def Ring.pushAll (r : Ring) : List (Nat × Int) → Ring
  | [] => r
  | q :: qs => (r.push q.1 q.2).pushAll qs

/-- What the driver's policy is told of the ring. -/
def Ring.reports (r : Ring) : List InstanceReport := r.cores.map fun s => ⟨(statusWord s).1, s.log⟩

/-- The ring after a reaction of the driver's policy. -/
def Ring.react (r : Ring) (d : DriverReaction) : Ring :=
  { r.pushAll d.pushes with turn := d.next, gaveUp := d.giveUp }

/-- The policy's turn on a ring whose current instance awaits input or has failed (R143). -/
def Ring.applyPolicy (p : DriverParams) (r : Ring) : Ring := r.react (p.policy r.turn r.reports)

/-- One turn: "run instance i, take its ProducedOutput, push it to instance (i+1) mod N's queue, advance to the next
instance" (R141). `none` if the run gives no result within `fuel` steps, or there is no instance. -/
def driverTurn (p : DriverParams) (fuel : Nat) (r : Ring) : Option Ring :=
  match r.cores[r.turn]? with
  | none => none
  | some s =>
    match runFor fuel s with
    | none => none
    | some t =>
      match t.es with
      | .continuing => none
      | .producedOutput v => some (((r.setCore r.turn t).push (r.after r.turn) v).advance)
      | .halted =>
        some ({ r.setCore r.turn t with lastHalted := if s.es = ExecState.halted then r.lastHalted else some r.turn }.advance)
      | .awaitingMoreInput => some ((r.setCore r.turn t).applyPolicy p)
      | .failed _ _ => some ((r.setCore r.turn t).applyPolicy p)

/-- The driver stops "when every instance has reached Halted" (R142). -/
def Ring.stopped (r : Ring) : Bool := r.cores.all fun s => decide (s.es = ExecState.halted)

/-- The driver runs no further turn: it has stopped (R142), or its policy has given up (R143). -/
def Ring.finished (r : Ring) : Bool := r.stopped || r.gaveUp

/-- The driver's turns until it is finished, at most `turns` of them. -/
def driverRun (p : DriverParams) (fuel : Nat) : Nat → Ring → Option Ring
  | 0, r => if r.finished = true then some r else none
  | turns + 1, r =>
    if r.finished = true then some r
    else
      match driverTurn p fuel r with
      | none => none
      | some r' => driverRun p fuel turns r'

/-- "The final answer is the last value produced by the last instance to halt" (R142), read off that instance's log. -/
def Ring.answer (p : DriverParams) (r : Ring) : Option Int :=
  match p.last with
  | .highestIndex => (r.cores[r.cores.length - 1]?).bind fun s => s.log.getLast?
  | .lastInTime => r.lastHalted.bind fun i => (r.cores[i]?).bind fun s => s.log.getLast?

end Sys2Proof.Machine
end

