-- ==== Sys2Proof/Safety.lean ====
section
/-!
DEFINITION. The terms claims use: when an operand resolves and to what, and the invariant of every reachable state.
-/
namespace Sys2Proof.Machine

/-! ### Operands, read from the spec's table of modes (20_memory.md R57, 40_execution_cycle.md R92, R93) -/

/-- An exact address that memory has: 0 <= a <= ADDR_MAX (20_memory.md R45). -/
abbrev AddressOk (c : Config) (a : Int) : Prop := 0 ≤ a ∧ a ≤ (c.addrMax : Int)

/-- The parameter resolves as a read (R92). -/
def Readable (s : State) (p : Param) : Prop :=
  match p.mode with
  | .position => AddressOk s.cfg p.raw
  | .immediate => True
  | .relative => AddressOk s.cfg (s.rb + p.raw)

/-- The value of a readable parameter (R92). -/
def operandValue (s : State) (p : Param) : Int :=
  match p.mode with
  | .position => s.readWord p.raw.toNat
  | .immediate => p.raw
  | .relative => s.readWord (s.rb + p.raw).toNat

/-- The parameter resolves as a write; immediate mode never does (R93). -/
def Writable (s : State) (p : Param) : Prop :=
  match p.mode with
  | .position => AddressOk s.cfg p.raw
  | .immediate => False
  | .relative => AddressOk s.cfg (s.rb + p.raw)

/-- The address of a writable parameter (R93). An immediate parameter has none, and is not `Writable`. -/
def destination (s : State) (p : Param) : Nat :=
  match p.mode with
  | .position => p.raw.toNat
  | .immediate => 0
  | .relative => (s.rb + p.raw).toNat

/-- The parameter of an instruction with role W, where it has one: p3 of ADD, MUL, LT and EQ, p1 of IN (30_encoding.md
R70). -/
def destParam : Instr → Option Param
  | .add _ _ dest => some dest
  | .mul _ _ dest => some dest
  | .inp dest => some dest
  | .out _ => none
  | .jt _ _ => none
  | .jf _ _ => none
  | .lt _ _ dest => some dest
  | .eq _ _ dest => some dest
  | .arb _ => none
  | .hlt => none

/-! ### The invariant of reachable states -/

/-- The info of a failure is one its kind can have (10_state.md R32, 60_exceptions.md R125). -/
def Failure.Legal (c : Config) : Failure → Prop
  | .invalidAddress a => a < 0 ∧ InW c.w a
  | .unknownOpcode code => -99 ≤ code ∧ code ≤ 98 ∧ ¬(1 ≤ code ∧ code ≤ 9)
  | .invalidWriteTarget i => i = 1 ∨ i = 3
  | .invalidMode i m => 1 ≤ i ∧ i ≤ 3 ∧ 3 ≤ m ∧ m ≤ 9
  | .arithmeticConversion a => a < 0
  | .malformedInstruction w => c.strict = true ∧ 199 ≤ w ∧ InW c.w w
  | .arithmeticOverflow r => c.ovf = .fault ∧ ¬InW c.w r
  | .addressOutOfRange a => c.addrMax < a

/-- The execution state fits the rest of the state: an output is a word, and a failure names the ip at which the core
stopped (10_state.md R30, 60_exceptions.md R126, R127). -/
def ExecState.Legal (c : Config) (ip : Nat) : ExecState → Prop
  | .continuing => True
  | .awaitingMoreInput => True
  | .producedOutput v => InW c.w v
  | .halted => True
  | .failed k fip => fip = ip ∧ k.Legal c

/-- The invariant: 10_state.md R20 to R32 on the values the state elements may hold. -/
structure State.Inv (s : State) : Prop where
  /-- The width holds the results of LT and EQ (log 4). -/
  cfgWf : s.cfg.wf
  /-- Memory is in canonical form. -/
  memCanonical : s.mem.wf
  /-- "Every cell at or above ext holds 0" (R27). -/
  memBelowExt : ∀ p ∈ s.mem, p.1 < s.ext
  /-- Only addresses up to ADDR_MAX are allocated (R26). -/
  extInRange : s.ext ≤ s.cfg.addrMax + 1
  /-- Every cell is a word (R26). -/
  memWords : ∀ p ∈ s.mem, InW s.cfg.w p.2
  /-- `rb` is a word (R24). -/
  rbWord : InW s.cfg.w s.rb
  /-- Every queued input is a word (R28). -/
  inqWords : ∀ v ∈ s.inq, InW s.cfg.w v
  /-- Every logged output is a word (R29). -/
  logWords : ∀ v ∈ s.log, InW s.cfg.w v
  /-- `ip` is at most max(ADDR_MAX + 4, WMAX) (R23). -/
  ipBound : (s.ip : Int) ≤ max (s.cfg.addrMax + 4 : Int) (wordMax s.cfg.w)
  /-- `es` fits the rest (R30 to R32). -/
  esLegal : s.es.Legal s.cfg s.ip

end Sys2Proof.Machine
end

