-- ==== Sys2Proof/Certificates/Slice0/Obligations.lean ====
section
/-!
DEFINITION. The statements for the provers. Each docstring names the rule of spec/ it formalises. A rule the spec marks
`[decision: D<n>]` is the spec's own choice (92_eei_decisions.md), and one it marks `[derived]` its own inference; the
docstring says where a statement rests on one.
-/

open Sys2Proof Sys2Proof.Machine

/-! ### Encoding -/

/-- Words written out from the spec's examples (30_encoding.md R75, R84; 95_test_vectors.md L1 to L3) decode to the
instructions they stand for, and the rejected ones are rejected by name. A sanity statement. -/
def Obligations.SpecWordsDecode : Prop :=
  decode true [1101, 4, 5, 0, 99] = .ok (.add ⟨.immediate, 4⟩ ⟨.immediate, 5⟩ ⟨.position, 0⟩, [99]) ∧
  decode true [2, 5, 6, 0] = .ok (.mul ⟨.position, 5⟩ ⟨.position, 6⟩ ⟨.position, 0⟩, []) ∧
  decode true [203, 5] = .ok (.inp ⟨.relative, 5⟩, []) ∧
  decode true [104, -7, 99] = .ok (.out ⟨.immediate, -7⟩, [99]) ∧
  decode true [1105, 7, 4] = .ok (.jt ⟨.immediate, 7⟩ ⟨.immediate, 4⟩, []) ∧
  decode true [1006, 32, 14] = .ok (.jf ⟨.position, 32⟩ ⟨.immediate, 14⟩, []) ∧
  decode true [1107, -2, 3, 0] = .ok (.lt ⟨.immediate, -2⟩ ⟨.immediate, 3⟩ ⟨.position, 0⟩, []) ∧
  decode true [1008, 100, 0, 5] = .ok (.eq ⟨.position, 100⟩ ⟨.immediate, 0⟩ ⟨.position, 5⟩, []) ∧
  decode true [109, -2000] = .ok (.arb ⟨.immediate, -2000⟩, []) ∧
  decode true [99, 1, 2, 3] = .ok (.hlt, [1, 2, 3]) ∧
  decode true [-199] = .error (.unknownOpcode (-99)) ∧
  decode true [98] = .error (.unknownOpcode 98) ∧
  decode true [1901] = .error (.invalidMode 1 9) ∧
  decode true [10105] = .error (.malformedInstruction 10105) ∧
  decode false [10105, 0, 0] = .ok (.jt ⟨.immediate, 0⟩ ⟨.position, 0⟩, [])

/-- Decode and encode agree, in the strict and the permissive decoder, with every mode and every raw value in every
parameter, whatever words follow (30_encoding.md R84, a `[derived]` rule). -/
def Obligations.DecodeOfEncode : Prop :=
  ∀ (strict : Bool) (i : Instr) (rest : List Int), decode strict (encode i ++ rest) = .ok (i, rest)

/-- Under STRICT each instruction has one encoding: a sequence that decodes and holds the instruction whole is the
encoding followed by the rest (30_encoding.md R84, R79, `[derived]` rules). -/
def Obligations.StrictDecodingHasOneEncoding : Prop :=
  ∀ (ws : List Int) (i : Instr) (rest : List Int),
    decode true ws = .ok (i, rest) → i.width ≤ ws.length → ws = encode i ++ rest

/-- Under STRICT exactly 136 words decode, and 99 of them have no immediate parameter in a W role (30_encoding.md R79, a
`[derived]` rule). -/
def Obligations.StrictWordsNumber136 : Prop :=
  (∃ ws : List Int, ws.Nodup ∧ ws.length = 136 ∧ ∀ w, w ∈ ws ↔ ∃ h, decodeHead true w = .ok h) ∧
  (∃ ws : List Int, ws.Nodup ∧ ws.length = 99 ∧
    ∀ w, w ∈ ws ↔ ∃ h, decodeHead true w = .ok h ∧ ∀ p ∈ destParam (h.instr []), p.mode ≠ .immediate)

/-- The four formats: the words of each instruction, most significant mode digit for the last parameter, and its width
(30_encoding.md R67). -/
def Obligations.InstructionPatterns : Prop :=
  ∀ (a b c : Param) (A B C : Nat), A = a.mode.digit → B = b.mode.digit → C = c.mode.digit →
    (encode .hlt = [99] ∧ Instr.hlt.width = 1) ∧
    (encode (.inp a) = [((3 + 100 * A : Nat) : Int), a.raw] ∧
      encode (.out a) = [((4 + 100 * A : Nat) : Int), a.raw] ∧
      encode (.arb a) = [((9 + 100 * A : Nat) : Int), a.raw] ∧
      ∀ i ∈ [Instr.inp a, .out a, .arb a], i.width = 2) ∧
    (encode (.jt a b) = [((5 + 100 * A + 1000 * B : Nat) : Int), a.raw, b.raw] ∧
      encode (.jf a b) = [((6 + 100 * A + 1000 * B : Nat) : Int), a.raw, b.raw] ∧
      ∀ i ∈ [Instr.jt a b, .jf a b], i.width = 3) ∧
    (encode (.add a b c) = [((1 + 100 * A + 1000 * B + 10000 * C : Nat) : Int), a.raw, b.raw, c.raw] ∧
      encode (.mul a b c) = [((2 + 100 * A + 1000 * B + 10000 * C : Nat) : Int), a.raw, b.raw, c.raw] ∧
      encode (.lt a b c) = [((7 + 100 * A + 1000 * B + 10000 * C : Nat) : Int), a.raw, b.raw, c.raw] ∧
      encode (.eq a b c) = [((8 + 100 * A + 1000 * B + 10000 * C : Nat) : Int), a.raw, b.raw, c.raw] ∧
      ∀ i ∈ [Instr.add a b c, .mul a b c, .lt a b c, .eq a b c], i.width = 4)

/-- The permissive decoder ignores exactly the leftover digits: it reads a word as the strict decoder reads the word
without them (00_scope.md R10, 30_encoding.md R75; the spec's decision D6). -/
def Obligations.PermissiveIgnoresLeftoverDigits : Prop :=
  ∀ (op : Opcode) (w : Nat), w % 100 = op.code →
    decodeHead false (w : Int) = decodeHead true ((w % 10 ^ (op.nparams + 2) : Nat) : Int)

/-! ### The step: phases 0 to 5 -/

/-- Phase 0: a step of a Halted or Failed core changes nothing (40_execution_cycle.md R86, the spec's decision D17;
60_exceptions.md R129). -/
def Obligations.TerminalStepChangesNothing : Prop :=
  ∀ s : State, (s.es = .halted ∨ ∃ k fip, s.es = .failed k fip) → step s = .next s

/-- From Continuing, AwaitingMoreInput and ProducedOutput(v) "the old es value has no effect on what the step does"
(40_execution_cycle.md R86). -/
def Obligations.OldExecutionStateHasNoEffect : Prop :=
  ∀ (s : State) (e : ExecState), s.es.terminal = false → e.terminal = false → step { s with es := e } = step s

/-- Phase 1: an ip above ADDR_MAX fails (40_execution_cycle.md R87, the spec's decision D4). -/
def Obligations.FetchAboveAddrMaxFails : Prop :=
  ∀ s : State, s.es.terminal = false → s.cfg.addrMax < s.ip →
    step s = .next { s with es := .failed (.addressOutOfRange s.ip) s.ip }

/-- Phase 2: a negative word and an unrecognised opcode fail, and a recognised opcode fixes the number of parameters
(40_execution_cycle.md R88; that a negative word is no instruction is the spec's decision D8,
and that the code of a negative multiple of 100 is 0 is read off the formula, DEDUCED, log 5). -/
def Obligations.OpcodePhase : Prop :=
  ∀ s : State, s.es.terminal = false → s.ip ≤ s.cfg.addrMax →
    (s.readWord s.ip < 0 →
      step s = .next { s with es := .failed (.unknownOpcode ((s.readWord s.ip).tmod 100)) s.ip }) ∧
    (0 ≤ s.readWord s.ip → s.readWord s.ip % 100 ∉ [1, 2, 3, 4, 5, 6, 7, 8, 9, 99] →
      step s = .next { s with es := .failed (.unknownOpcode (s.readWord s.ip % 100)) s.ip }) ∧
    (∀ i, fetchInstr s = .ok i →
      0 ≤ s.readWord s.ip ∧ s.readWord s.ip % 100 = i.opcode.code ∧
      (s.readWord s.ip % 100 ∈ [1, 2, 7, 8] → i.params.length = 3) ∧
      (s.readWord s.ip % 100 ∈ [3, 4, 9] → i.params.length = 1) ∧
      (s.readWord s.ip % 100 ∈ [5, 6] → i.params.length = 2) ∧
      (s.readWord s.ip % 100 = 99 → i.params.length = 0))

/-- Phase 3: the first parameter whose mode digit is 3 to 9 fails the step, whatever the digits above it
(40_execution_cycle.md R89, 30_encoding.md R73; the spec's decision D9). Parameter `j + 1` has its mode at digit `j + 2`. -/
def Obligations.FirstIllegalModeDigitFails : Prop :=
  ∀ (s : State) (w : Nat) (op : Opcode) (j : Nat),
    s.es.terminal = false → s.ip ≤ s.cfg.addrMax → s.readWord s.ip = w → w % 100 = op.code → j < op.nparams →
    2 < digit w (j + 2) → (∀ l, l < j → digit w (l + 2) ≤ 2) →
    step s = .next { s with es := .failed (.invalidMode (j + 1) (digit w (j + 2))) s.ip }

/-- Phase 4: under STRICT leftover digits fail the step, after the mode check and before any parameter word is fetched
(40_execution_cycle.md R90, 30_encoding.md R75; the spec's decisions D6 and D7). -/
def Obligations.LeftoverDigitsFailUnderStrict : Prop :=
  ∀ (s : State) (w : Nat) (op : Opcode),
    s.es.terminal = false → s.ip ≤ s.cfg.addrMax → s.readWord s.ip = w → w % 100 = op.code →
    (∀ j, j < op.nparams → digit w (j + 2) ≤ 2) → s.cfg.strict = true → w / 10 ^ (op.nparams + 2) ≠ 0 →
    step s = .next { s with es := .failed (.malformedInstruction w) s.ip }

/-- Phase 5: an instruction that decodes and does not lie in memory whole fails at the first address above ADDR_MAX
(40_execution_cycle.md R91, the spec's decision D4). -/
def Obligations.RawFetchAboveAddrMaxFails : Prop :=
  ∀ (s : State) (h : Head) (j : Nat),
    s.es.terminal = false → decodeHead s.cfg.strict (s.readWord s.ip) = .ok h → j < h.nparams →
    s.ip + j = s.cfg.addrMax →
    step s = .next { s with es := .failed (.addressOutOfRange (s.ip + (j + 1))) s.ip }

/-- A step runs the decoded instruction: when the words at ip decode to `i` and memory has them, the step of a core that is
not terminal is `exec i` in that state; the step adds nothing around it, `exec` itself moves ip (40_execution_cycle.md
R85, R103). -/
def Obligations.StepRunsDecodedInstruction : Prop :=
  ∀ (s : State) (i : Instr) (rest : List Int),
    s.es.terminal = false →
    decode s.cfg.strict [s.readWord s.ip, s.readWord (s.ip + 1), s.readWord (s.ip + 2), s.readWord (s.ip + 3)] =
      .ok (i, rest) →
    s.ip + i.width ≤ s.cfg.addrMax + 1 → step s = exec i s

/-- A step runs the instruction whose encoding stands at ip, under either decoder (30_encoding.md R84,
40_execution_cycle.md R85). -/
def Obligations.EncodedInstructionRuns : Prop :=
  ∀ (s : State) (i : Instr), s.es.terminal = false → s.ip + i.width ≤ s.cfg.addrMax + 1 →
    (∀ k (h : k < (encode i).length), s.readWord (s.ip + k) = (encode i)[k]) → step s = exec i s

/-! ### Phase 6: the resolver -/

/-- The read path of the mode multiplexer: the word at raw, raw itself, the word at rb + raw, or the range failure of
20_memory.md R57 (40_execution_cycle.md R92; that exact addresses end at ADDR_MAX is the spec's decisions D4 and D5). -/
def Obligations.ReadPathOfModes : Prop :=
  ∀ (s : State) (p : Param),
    (p.mode = .immediate → resolveRead s p = .ok p.raw) ∧
    (p.mode = .position →
      (AddressOk s.cfg p.raw → resolveRead s p = .ok (s.readWord p.raw.toNat)) ∧
      (p.raw < 0 → resolveRead s p = .error (.invalidAddress p.raw)) ∧
      ((s.cfg.addrMax : Int) < p.raw → resolveRead s p = .error (.addressOutOfRange p.raw.toNat))) ∧
    (p.mode = .relative →
      (AddressOk s.cfg (s.rb + p.raw) → resolveRead s p = .ok (s.readWord (s.rb + p.raw).toNat)) ∧
      (s.rb + p.raw < 0 → resolveRead s p = .error (.arithmeticConversion (s.rb + p.raw))) ∧
      ((s.cfg.addrMax : Int) < s.rb + p.raw →
        resolveRead s p = .error (.addressOutOfRange (s.rb + p.raw).toNat)))

/-- The write path of the mode multiplexer: raw, rb + raw, or a failure; immediate mode is never a write target, and `i`
is the parameter's index (40_execution_cycle.md R93, 20_memory.md R57; that exact addresses end at ADDR_MAX is the spec's
decisions D4 and D5). -/
def Obligations.WritePathOfModes : Prop :=
  ∀ (s : State) (i : Nat) (p : Param),
    (p.mode = .immediate → resolveWriteAddress s i p = .error (.invalidWriteTarget i)) ∧
    (p.mode = .position →
      (AddressOk s.cfg p.raw → resolveWriteAddress s i p = .ok p.raw.toNat) ∧
      (p.raw < 0 → resolveWriteAddress s i p = .error (.invalidAddress p.raw)) ∧
      ((s.cfg.addrMax : Int) < p.raw → resolveWriteAddress s i p = .error (.addressOutOfRange p.raw.toNat))) ∧
    (p.mode = .relative →
      (AddressOk s.cfg (s.rb + p.raw) → resolveWriteAddress s i p = .ok (s.rb + p.raw).toNat) ∧
      (s.rb + p.raw < 0 → resolveWriteAddress s i p = .error (.arithmeticConversion (s.rb + p.raw))) ∧
      ((s.cfg.addrMax : Int) < s.rb + p.raw →
        resolveWriteAddress s i p = .error (.addressOutOfRange (s.rb + p.raw).toNat)))

/-- The lowest parameter that does not resolve is the one reported, for each instruction with a parameter, and IN's
destination fails whatever the queue holds (40_execution_cycle.md R94, 60_exceptions.md R131; the spec's decisions D10 and
D28). -/
def Obligations.FirstFailingParameterIsReported : Prop :=
  ∀ (s : State) (a b dest : Param) (k : Failure),
    (∀ i ∈ [Instr.add a b dest, .mul a b dest, .lt a b dest, .eq a b dest],
      (resolveRead s a = .error k → exec i s = .next { s with es := .failed k s.ip }) ∧
      (Readable s a → resolveRead s b = .error k → exec i s = .next { s with es := .failed k s.ip }) ∧
      (Readable s a → Readable s b → resolveWriteAddress s 3 dest = .error k →
        exec i s = .next { s with es := .failed k s.ip })) ∧
    (∀ i ∈ [Instr.jt a b, .jf a b],
      (resolveRead s a = .error k → exec i s = .next { s with es := .failed k s.ip }) ∧
      (Readable s a → resolveRead s b = .error k → exec i s = .next { s with es := .failed k s.ip })) ∧
    (∀ i ∈ [Instr.out a, .arb a],
      resolveRead s a = .error k → exec i s = .next { s with es := .failed k s.ip }) ∧
    (resolveWriteAddress s 1 dest = .error k → exec (.inp dest) s = .next { s with es := .failed k s.ip })

/-! ### Phases 7 and 8: what each instruction does -/

/-- ADD writes the exact sum where it is a word; otherwise it writes the reduced sum under WRAP and fails under FAULT with
nothing written (41_arithmetic.md R105; the two overflow clauses are the spec's decision D3). -/
def Obligations.AddWritesSum : Prop :=
  ∀ (s : State) (a b dest : Param) (r : Int), Readable s a → Readable s b → Writable s dest →
    r = operandValue s a + operandValue s b →
    (InW s.cfg.w r →
      exec (.add a b dest) s = .next { s with
        mem := s.mem.write (destination s dest) r, ext := max s.ext (destination s dest + 1),
        ip := s.ip + 4, es := .continuing }) ∧
    (¬InW s.cfg.w r → s.cfg.ovf = .wrap →
      exec (.add a b dest) s = .next { s with
        mem := s.mem.write (destination s dest) (wrapW s.cfg r), ext := max s.ext (destination s dest + 1),
        ip := s.ip + 4, es := .continuing }) ∧
    (¬InW s.cfg.w r → s.cfg.ovf = .fault →
      exec (.add a b dest) s = .next { s with es := .failed (.arithmeticOverflow r) s.ip })

/-- MUL writes the exact signed product where it is a word; otherwise as ADD (41_arithmetic.md R106; the overflow clauses
are the spec's decision D3). -/
def Obligations.MulWritesProduct : Prop :=
  ∀ (s : State) (a b dest : Param) (r : Int), Readable s a → Readable s b → Writable s dest →
    r = operandValue s a * operandValue s b →
    (InW s.cfg.w r →
      exec (.mul a b dest) s = .next { s with
        mem := s.mem.write (destination s dest) r, ext := max s.ext (destination s dest + 1),
        ip := s.ip + 4, es := .continuing }) ∧
    (¬InW s.cfg.w r → s.cfg.ovf = .wrap →
      exec (.mul a b dest) s = .next { s with
        mem := s.mem.write (destination s dest) (wrapW s.cfg r), ext := max s.ext (destination s dest + 1),
        ip := s.ip + 4, es := .continuing }) ∧
    (¬InW s.cfg.w r → s.cfg.ovf = .fault →
      exec (.mul a b dest) s = .next { s with es := .failed (.arithmeticOverflow r) s.ip })

/-- LT: its words, and the signed comparison of the old operand values written as 1 or 0; no failure of its own
(44_compare.md R119). -/
def Obligations.LtWritesComparison : Prop :=
  ∀ (s : State) (a b dest : Param),
    encode (.lt a b dest) =
      [((7 + 100 * a.mode.digit + 1000 * b.mode.digit + 10000 * dest.mode.digit : Nat) : Int),
        a.raw, b.raw, dest.raw] ∧
    (Readable s a → Readable s b → Writable s dest →
      exec (.lt a b dest) s = .next { s with
        mem := s.mem.write (destination s dest) (if operandValue s a < operandValue s b then 1 else 0),
        ext := max s.ext (destination s dest + 1), ip := s.ip + 4, es := .continuing })

/-- EQ: its words, and the equality of the old operand values written as 1 or 0; no failure of its own (44_compare.md
R120). -/
def Obligations.EqWritesComparison : Prop :=
  ∀ (s : State) (a b dest : Param),
    encode (.eq a b dest) =
      [((8 + 100 * a.mode.digit + 1000 * b.mode.digit + 10000 * dest.mode.digit : Nat) : Int),
        a.raw, b.raw, dest.raw] ∧
    (Readable s a → Readable s b → Writable s dest →
      exec (.eq a b dest) s = .next { s with
        mem := s.mem.write (destination s dest) (if operandValue s a = operandValue s b then 1 else 0),
        ext := max s.ext (destination s dest + 1), ip := s.ip + 4, es := .continuing })

/-- IN on a non-empty queue moves the oldest value to its destination (42_io.md R107; that the destination is resolved
first is the spec's decision D28). -/
def Obligations.InTakesOldestInput : Prop :=
  ∀ (s : State) (dest : Param) (x : Int) (xs : List Int), Writable s dest → s.inq = x :: xs →
    exec (.inp dest) s = .next { s with
      mem := s.mem.write (destination s dest) x, ext := max s.ext (destination s dest + 1),
      inq := xs, ip := s.ip + 2, es := .continuing }

/-- IN on an empty queue changes `es` and nothing else (42_io.md R107, the spec's decision D28 on the order of the
checks). -/
def Obligations.InSuspendsOnEmptyQueue : Prop :=
  ∀ (s : State) (dest : Param), Writable s dest → s.inq = [] →
    exec (.inp dest) s = .next { s with es := .awaitingMoreInput }

/-- OUT appends the value to the log, reports it and advances ip (42_io.md R108; that it always does both is the spec's
decision D15). -/
def Obligations.OutLogsAndReports : Prop :=
  ∀ (s : State) (a : Param), Readable s a →
    exec (.out a) s = .next { s with
      log := s.log ++ [operandValue s a], ip := s.ip + 2, es := .producedOutput (operandValue s a) }

/-- JT jumps to the target when its first operand is not 0, fails if that target is negative, and otherwise advances by
3 without looking at the target (43_jumps.md R117; the negative target is the spec's decision D12). -/
def Obligations.JtJumpsWhenNonzero : Prop :=
  ∀ (s : State) (a target : Param), Readable s a → Readable s target →
    (operandValue s a ≠ 0 → 0 ≤ operandValue s target →
      exec (.jt a target) s = .next { s with ip := (operandValue s target).toNat, es := .continuing }) ∧
    (operandValue s a ≠ 0 → operandValue s target < 0 →
      exec (.jt a target) s = .next { s with es := .failed (.invalidAddress (operandValue s target)) s.ip }) ∧
    (operandValue s a = 0 → exec (.jt a target) s = .next { s with ip := s.ip + 3, es := .continuing })

/-- JF jumps to the target when its first operand is 0, fails if that target is negative, and otherwise advances by 3
without looking at the target (43_jumps.md R118; the negative target is the spec's decision D12). -/
def Obligations.JfJumpsWhenZero : Prop :=
  ∀ (s : State) (a target : Param), Readable s a → Readable s target →
    (operandValue s a = 0 → 0 ≤ operandValue s target →
      exec (.jf a target) s = .next { s with ip := (operandValue s target).toNat, es := .continuing }) ∧
    (operandValue s a = 0 → operandValue s target < 0 →
      exec (.jf a target) s = .next { s with es := .failed (.invalidAddress (operandValue s target)) s.ip }) ∧
    (operandValue s a ≠ 0 → exec (.jf a target) s = .next { s with ip := s.ip + 3, es := .continuing })

/-- ARB adds its operand, resolved with the old rb, to rb (45_system.md R121; the overflow clauses are the spec's decision
D3, and that a negative rb is legal D32). -/
def Obligations.ArbAdjustsRelativeBase : Prop :=
  ∀ (s : State) (a : Param) (r : Int), Readable s a → r = s.rb + operandValue s a →
    (InW s.cfg.w r → exec (.arb a) s = .next { s with rb := r, ip := s.ip + 2, es := .continuing }) ∧
    (¬InW s.cfg.w r → s.cfg.ovf = .wrap →
      exec (.arb a) s = .next { s with rb := wrapW s.cfg r, ip := s.ip + 2, es := .continuing }) ∧
    (¬InW s.cfg.w r → s.cfg.ovf = .fault →
      exec (.arb a) s = .next { s with es := .failed (.arithmeticOverflow r) s.ip })

/-- HLT halts and advances ip by 1, with every other state element unchanged (45_system.md R122; the value of ip is the
spec's decision D14). -/
def Obligations.HltHalts : Prop :=
  ∀ s : State, exec .hlt s = .next { s with ip := s.ip + 1, es := .halted }

/-- wrapW(v) is the one word congruent to v modulo 2^W (00_scope.md R14, a `[derived]` rule; the width is at least 2,
log 4). -/
def Obligations.WrapIsTheCongruentWord : Prop :=
  ∀ (c : Config) (v : Int), c.wf →
    InW c.w (wrapW c v) ∧ ((2 ^ c.w : Nat) : Int) ∣ wrapW c v - v ∧
    ∀ u : Int, InW c.w u → ((2 ^ c.w : Nat) : Int) ∣ u - v → u = wrapW c v

/-! ### Failure and suspension -/

/-- A step that ends Failed has changed `es` and nothing else, and a step that raised the failure records the ip it began
at (60_exceptions.md R126, R127; the spec's decisions D11, D24 and D37). -/
def Obligations.FailureChangesOnlyExecutionState : Prop :=
  ∀ (s t : State) (k : Failure) (fip : Nat), step s = .next t → t.es = .failed k fip →
    t = { s with es := .failed k fip } ∧ (s.es.terminal = false → fip = s.ip)

/-- The suspension points are exactly an output and an input that finds the queue empty; besides these a run returns only
at Halted and Failed (42_io.md R112, R107; 40_execution_cycle.md R97; 45_system.md R122). That an output always suspends is
the spec's decision D15, and that an input's destination is resolved before the queue is examined D28. -/
def Obligations.SuspensionPointsAreExact : Prop :=
  (∀ s t : State, s.es.terminal = false → step s = .next t →
    ((∃ v, t.es = .producedOutput v) ↔ ∃ a, fetchInstr s = .ok (.out a) ∧ Readable s a) ∧
    (t.es = .awaitingMoreInput ↔ ∃ dest, fetchInstr s = .ok (.inp dest) ∧ Writable s dest ∧ s.inq = []) ∧
    (t.es = .halted ↔ fetchInstr s = .ok .hlt)) ∧
  (∀ s t : State, RunsTo s t →
    (∃ v, t.es = .producedOutput v) ∨ t.es = .awaitingMoreInput ∨ t.es = .halted ∨ ∃ k fip, t.es = .failed k fip)

/-- An input that found the queue empty is executed again by the next step: with the queue still empty nothing changes,
and after a push it takes the pushed value, as if that had been in the queue before the first attempt (42_io.md R110). -/
def Obligations.StarvedInputRetries : Prop :=
  ∀ s t : State, step s = .next t → t.es = .awaitingMoreInput →
    t.ip = s.ip ∧ step t = .next t ∧ runFor 1 t = some t ∧
    ∀ (v : Int) (u : State), pushInput v t = some u →
      step u = step { s with inq := s.inq ++ [v] } ∧
      ∃ dest, fetchInstr s = .ok (.inp dest) ∧
        step u = .next { t with
          mem := t.mem.write (destination t dest) v, ext := max t.ext (destination t dest + 1),
          ip := s.ip + 2, es := .continuing }

/-! ### Frames -/

/-- The frame of the instructions that store a result (ADD, MUL, LT, EQ), on every operand and every outcome: the
parameters, rb, the queue and the log are unchanged; every word of memory but the one at the destination reads as before,
and all of it where the destination does not resolve (40_execution_cycle.md R95, R96; 10_state.md R25, R28, R29). -/
def Obligations.StoringInstructionsFrame : Prop :=
  ∀ (s t : State) (a b dest : Param), ∀ i ∈ [Instr.add a b dest, .mul a b dest, .lt a b dest, .eq a b dest],
    exec i s = .next t →
    t.cfg = s.cfg ∧ t.rb = s.rb ∧ t.inq = s.inq ∧ t.log = s.log ∧
    (∀ d, resolveWriteAddress s 3 dest = .ok d →
      (∀ x, x ≠ d → t.readWord x = s.readWord x) ∧ (t.ext = s.ext ∨ t.ext = max s.ext (d + 1))) ∧
    (∀ k, resolveWriteAddress s 3 dest = .error k → (∀ x, t.readWord x = s.readWord x) ∧ t.ext = s.ext)

/-- The frame of IN on every operand and every outcome: the parameters, rb and the log are unchanged, the queue loses its
front or nothing, and every word of memory but the one at the destination reads as before (42_io.md R107). -/
def Obligations.InputInstructionFrame : Prop :=
  ∀ (s t : State) (dest : Param), exec (.inp dest) s = .next t →
    t.cfg = s.cfg ∧ t.rb = s.rb ∧ t.log = s.log ∧ (t.inq = s.inq ∨ ∃ x, s.inq = x :: t.inq) ∧
    (∀ d, resolveWriteAddress s 1 dest = .ok d →
      (∀ x, x ≠ d → t.readWord x = s.readWord x) ∧ (t.ext = s.ext ∨ t.ext = max s.ext (d + 1))) ∧
    (∀ k, resolveWriteAddress s 1 dest = .error k → (∀ x, t.readWord x = s.readWord x) ∧ t.ext = s.ext ∧ t.inq = s.inq)

/-- The frame of the instructions that store nothing (OUT, JT, JF, ARB, HLT), on every operand and every outcome: memory,
its extent, the queue and the parameters are unchanged; rb is unchanged but by ARB and the log but by OUT
(40_execution_cycle.md R95, R96). -/
def Obligations.NonStoringInstructionsFrame : Prop :=
  ∀ (s t : State) (a target : Param),
    (∀ i ∈ [Instr.out a, .jt a target, .jf a target, .arb a, .hlt], exec i s = .next t →
      t.cfg = s.cfg ∧ (∀ x, t.readWord x = s.readWord x) ∧ t.ext = s.ext ∧ t.inq = s.inq) ∧
    (∀ i ∈ [Instr.out a, .jt a target, .jf a target, .hlt], exec i s = .next t → t.rb = s.rb) ∧
    (∀ i ∈ [Instr.jt a target, .jf a target, .arb a, .hlt], exec i s = .next t → t.log = s.log)

/-! ### Rules of the whole machine -/

/-- A step always answers a next state: no state stops the machine outside its own `es`. That a failure is a next state, and
that the interface's fault and refusal are never answered, is the model's choice (log 10, DEDUCED from 60_exceptions.md R127
and R135); 40_execution_cycle.md R97 says only which `es` a step returns. -/
def Obligations.StepAlwaysAnswersNext : Prop :=
  ∀ s : State, ∃ t, step s = .next t

/-- Only ARB writes rb (10_state.md R25: "It is written only by ARB"). -/
def Obligations.OnlyArbWritesRelativeBase : Prop :=
  ∀ s t : State, step s = .next t → t.rb ≠ s.rb → ∃ a, fetchInstr s = .ok (.arb a) ∧ Readable s a

/-- Only ADD, MUL, IN, LT and EQ write memory, and only at their destination (20_memory.md R45: "ADD, MUL, IN, LT and EQ
write memory"). -/
def Obligations.OnlyFiveInstructionsWriteMemory : Prop :=
  ∀ (s t : State) (x : Nat), step s = .next t → t.readWord x ≠ s.readWord x →
    ∃ i dest, fetchInstr s = .ok i ∧ destParam i = some dest ∧ Writable s dest ∧ x = destination s dest

/-- Only IN takes from the queue, its front and nothing else (10_state.md R28). -/
def Obligations.OnlyInTakesFromQueue : Prop :=
  ∀ s t : State, step s = .next t → t.inq ≠ s.inq →
    ∃ dest x, fetchInstr s = .ok (.inp dest) ∧ s.inq = x :: t.inq ∧ t.readWord (destination s dest) = x

/-- Only OUT writes the log, one value at its end, and that value is the one reported (10_state.md R29, the spec's
decisions D15 and D20). -/
def Obligations.OnlyOutWritesLog : Prop :=
  ∀ s t : State, step s = .next t → t.log ≠ s.log →
    ∃ a v, fetchInstr s = .ok (.out a) ∧ t.log = s.log ++ [v] ∧ t.es = .producedOutput v

/-- No step writes the parameters of the machine (10_state.md R20; that they stand in State is the model's choice,
log 1). -/
def Obligations.StepKeepsParameters : Prop :=
  ∀ s t : State, step s = .next t → t.cfg = s.cfg

/-- The extent changes only by a write, to one past the written address, and never shrinks (10_state.md R27, the spec's
decision D35; 20_memory.md R47). -/
def Obligations.ExtentGrowsToWrittenAddress : Prop :=
  ∀ s t : State, step s = .next t →
    s.ext ≤ t.ext ∧
    (t.ext ≠ s.ext → ∃ i dest, fetchInstr s = .ok i ∧ destParam i = some dest ∧ t.ext = destination s dest + 1)

/-- A step that commits a taken jump sets ip to its target, and a step that commits anything else advances ip by the
instruction's width (40_execution_cycle.md R96, with the spec's decision D14 for HLT). -/
def Obligations.NextIpIsWidthOrTarget : Prop :=
  ∀ s t : State, s.es.terminal = false → step s = .next t → t.es ≠ .awaitingMoreInput →
    (∀ k fip, t.es ≠ .failed k fip) →
    ∃ i, fetchInstr s = .ok i ∧
      (∀ a target, (i = .jt a target ∧ operandValue s a ≠ 0) ∨ (i = .jf a target ∧ operandValue s a = 0) →
        (t.ip : Int) = operandValue s target) ∧
      ((∀ a target, ¬((i = .jt a target ∧ operandValue s a ≠ 0) ∨ (i = .jf a target ∧ operandValue s a = 0))) →
        t.ip = s.ip + i.width)

/-! ### The invariant -/

/-- The reset state satisfies the invariant (10_state.md R44). -/
def Obligations.ResetSatisfiesInvariant : Prop := State.reset.Inv

/-- Every step keeps the invariant: memory canonical and 0 at and beyond its extent, every word in range, ip within
max(ADDR_MAX + 4, WMAX), and a recorded failure one that its kind can have at the ip where the core stopped (10_state.md
R20 to R32, 60_exceptions.md R125; that the width is at least 2 is DEDUCED, log 4). -/
def Obligations.StepKeepsInvariant : Prop :=
  ∀ s t : State, s.Inv → step s = .next t → t.Inv

/-- Every host transaction on a built core keeps the invariant: the ones that always return (`push_input`, `step`,
`drain_output_log`, `peek`, `dump`, `status`), and `run` where it returns (10_state.md R37, R39 to R43). -/
def Obligations.TransactionsKeepInvariant : Prop :=
  (∀ (x : Transaction) (s t : State) (r : Response), s.Inv → transact x s = some (t, r) → t.Inv) ∧
  (∀ s t : State, s.Inv → RunsTo s t → t.Inv)

/-- Every constructed core satisfies the invariant (10_state.md R38, R44). -/
def Obligations.ConstructedCoreSatisfiesInvariant : Prop :=
  ∀ (c : Config) (image inputs : List Int) (s : State), c.wf → construct c image inputs = some s → s.Inv

/-! ### What a step cannot see -/

/-- The log is written and never read: the same step with another history of outputs does the same (10_state.md R29,
42_io.md R114). -/
def Obligations.LogIsNeverRead : Prop :=
  ∀ (s t : State) (l : List Int), step s = .next t →
    step { s with log := l ++ s.log } = .next { t with log := l ++ t.log }

/-- The extent is hidden: no step depends on it but for the extent itself (10_state.md R27, R36; the spec's decision
D35). -/
def Obligations.ExtentIsNeverRead : Prop :=
  ∀ (s t : State) (n : Nat), step s = .next t → ∃ m, step { s with ext := n } = .next { t with ext := m }

/-- First in, first out: values pushed behind others are not seen by a step that does not starve (42_io.md R109). -/
def Obligations.QueueTailIsUnseen : Prop :=
  ∀ (s t : State) (vs : List Int), step s = .next t → t.es ≠ .awaitingMoreInput →
    step { s with inq := s.inq ++ vs } = .next { t with inq := t.inq ++ vs }

/-- rb is read only for relative parameters, and by ARB: an instruction with neither does the same whatever rb holds
(10_state.md R25). -/
def Obligations.RelativeBaseReadOnlyByRelativeMode : Prop :=
  ∀ (s t : State) (i : Instr) (r : Int), (∀ p ∈ i.params, p.mode ≠ .relative) → (∀ a, i ≠ .arb a) →
    exec i s = .next t → exec i { s with rb := r } = .next { t with rb := r }

/-! ### The host's transactions -/

/-- Construction: refused unless every element is a word and the image fits; otherwise every state element has the value
of the reset table (10_state.md R38, R44; ip, L and ext by the spec's decisions D13, D20 and D35; inputs are not checked
against INQ_CAP, log 6). -/
def Obligations.ConstructSetsResetValues : Prop :=
  ∀ (c : Config) (image inputs : List Int) (s : State),
    construct c image inputs = some s ↔
      ((∀ v ∈ image, InW c.w v) ∧ (∀ v ∈ inputs, InW c.w v) ∧ image.length ≤ c.addrMax + 1) ∧
      s.cfg = c ∧ s.mem.wf ∧ (∀ a, s.readWord a = image.getD a 0) ∧ s.ext = image.length ∧ s.ip = 0 ∧ s.rb = 0 ∧
      s.inq = inputs ∧ s.log = [] ∧ s.es = .continuing

/-- The reset state is the construction of the empty image at the default parameters, and its first step fails with
UnknownOpcode(0). That construction is the only reset is 70_reset_and_hazards.md R145, and that an empty image is allowed and
its first step fails so is the spec's decision D38. That the reset state has the empty image is the model's choice (log 7),
and that it has the default parameters too (log 8). -/
def Obligations.ResetIsEmptyConstruction : Prop :=
  construct Config.default [] [] = some State.reset ∧
  step State.reset = .next { State.reset with es := .failed (.unknownOpcode 0) 0 }

/-- push_input appends at the tail and changes nothing else, in every execution state; it is refused exactly when the
queue is full or the value is no word (10_state.md R39, the spec's decisions D18 and D39; an over-full queue counts as
full, log 6). -/
def Obligations.PushAppendsAtTail : Prop :=
  ∀ (v : Int) (s t : State),
    pushInput v s = some t ↔
      InW s.cfg.w v ∧ (∀ cap, s.cfg.inqCap = some cap → s.inq.length < cap) ∧ t = { s with inq := s.inq ++ [v] }

/-- The inspection transactions return what they say and change nothing, and draining returns the log and empties it
(10_state.md R42, R43; the spec's decisions D19 and D20). -/
def Obligations.InspectionAndDrain : Prop :=
  ∀ (s : State) (a : Int) (v : Int),
    (peek a s = some v ↔ AddressOk s.cfg a ∧ v = s.readWord a.toNat) ∧
    ((dump s).length = s.ext ∧ ∀ x, x < s.ext → (dump s)[x]? = some (s.readWord x)) ∧
    (∀ x ∈ [Transaction.peek a, .dump, .status], ∀ t r, transact x s = some (t, r) → t = s) ∧
    transact .status s = some (s, .executionState s.es) ∧
    transact .drainOutputLog s = some ({ s with log := [] }, .words s.log)

/-- run under fuel is run: the relation and the function give the same results, and out of fuel is no result
(40_execution_cycle.md R101, the spec's decision D36). -/
def Obligations.RunUnderFuelIsRun : Prop :=
  ∀ s t : State, RunsTo s t ↔ ∃ fuel, runFor fuel s = some t

/-- run from Continuing, ProducedOutput or AwaitingMoreInput performs a step, returns at the first that does not yield
Continuing, and goes on otherwise (40_execution_cycle.md R99, R100; the spec's decisions D15 and D16). -/
def Obligations.RunPerformsAStep : Prop :=
  ∀ s t : State, s.es.terminal = false →
    (RunsTo s t ↔
      ∃ u, step s = .next u ∧ ((u.es ≠ .continuing ∧ t = u) ∨ (u.es = .continuing ∧ RunsTo u t)))

/-- A driver's turn shares nothing between instances. Whatever the driver's policy, the instance whose turn it is runs, and
every instance may then find values at the tail of its queue; nothing else of any instance changes. A turn that takes an
output touches two cores only: the one that ran, and the queue of the next one in the ring (20_memory.md R64,
60_exceptions.md R140, R141). That the policy acts through pushes alone, and a refused push, are log 9. -/
def Obligations.RingTurnMovesOneValue : Prop :=
  (∀ (p : DriverParams) (fuel : Nat) (r r' : Ring), driverTurn p fuel r = some r' →
    r'.cores.length = r.cores.length ∧
    (∀ s, r.cores[r.turn]? = some s →
      ∃ t vs, runFor fuel s = some t ∧ r'.cores[r.turn]? = some { t with inq := t.inq ++ vs }) ∧
    ∀ j s, j ≠ r.turn → r.cores[j]? = some s → ∃ vs, r'.cores[j]? = some { s with inq := s.inq ++ vs }) ∧
  (∀ (p : DriverParams) (fuel : Nat) (r : Ring) (s t u : State) (v : Int),
    r.cores[r.turn]? = some s → runFor fuel s = some t → t.es = .producedOutput v →
    (r.turn + 1) % r.cores.length ≠ r.turn → r.cores[(r.turn + 1) % r.cores.length]? = some u →
    ∃ r', driverTurn p fuel r = some r' ∧ r'.turn = (r.turn + 1) % r.cores.length ∧
      r'.cores.length = r.cores.length ∧ r'.cores[r.turn]? = some t ∧
      (∀ u', pushInput v u = some u' → r'.cores[(r.turn + 1) % r.cores.length]? = some u') ∧
      (pushInput v u = none → r'.cores[(r.turn + 1) % r.cores.length]? = some u) ∧
      ∀ j, j ≠ r.turn → j ≠ (r.turn + 1) % r.cores.length → r'.cores[j]? = r.cores[j]?)

/-- The status word: each execution state has its number, with the output value beside ProducedOutput, and with the kind
code, fip and info record beside Failed (10_state.md R33, R32; 60_exceptions.md R124). The numbers are the spec's decision
D23, and what a failure records is D24. -/
def Obligations.StatusWordNumbers : Prop :=
  ∀ s : State,
    (s.es = .continuing → statusWord s = (0, .nothing)) ∧
    (s.es = .awaitingMoreInput → statusWord s = (1, .nothing)) ∧
    (∀ v, s.es = .producedOutput v → statusWord s = (2, .value v)) ∧
    (s.es = .halted → statusWord s = (3, .nothing)) ∧
    (∀ (fip : Nat) (a : Int), s.es = .failed (.invalidAddress a) fip → statusWord s = (4, .failure 1 fip [a])) ∧
    (∀ (fip : Nat) (code : Int), s.es = .failed (.unknownOpcode code) fip → statusWord s = (4, .failure 2 fip [code])) ∧
    (∀ fip i : Nat, s.es = .failed (.invalidWriteTarget i) fip → statusWord s = (4, .failure 3 fip [(i : Int)])) ∧
    (∀ fip i m : Nat,
      s.es = .failed (.invalidMode i m) fip → statusWord s = (4, .failure 4 fip [(i : Int), (m : Int)])) ∧
    (∀ (fip : Nat) (a : Int), s.es = .failed (.arithmeticConversion a) fip → statusWord s = (4, .failure 5 fip [a])) ∧
    (∀ (fip : Nat) (w : Int), s.es = .failed (.malformedInstruction w) fip → statusWord s = (4, .failure 6 fip [w])) ∧
    (∀ (fip : Nat) (r : Int), s.es = .failed (.arithmeticOverflow r) fip → statusWord s = (4, .failure 7 fip [r])) ∧
    (∀ fip a : Nat, s.es = .failed (.addressOutOfRange a) fip → statusWord s = (4, .failure 8 fip [(a : Int)]))
end

