-- ==== Sys2Proof/Laws/Decode.lean ====
section
/-!
SUPPORT. The small lemmas of the encoding tables, and what the parts of the decoder answer.
-/
namespace Sys2Proof

/-! ### Tables -/

@[simp] theorem Mode.ofDigit_digit (m : Mode) : Mode.ofDigit m.digit = some m := by cases m <;> rfl

theorem Mode.digit_le (m : Mode) : m.digit ≤ 2 := by cases m <;> decide

theorem Mode.ofDigit_eq_some {n : Nat} {m : Mode} (h : Mode.ofDigit n = some m) : n = m.digit := by
  unfold Mode.ofDigit at h
  split at h <;> cases h <;> rfl

theorem Mode.ofDigit_eq_none {n : Nat} : Mode.ofDigit n = none ↔ 2 < n := by
  unfold Mode.ofDigit
  split
  · simp
  · simp
  · simp
  · rename_i h0 h1 h2
    simp only [true_iff]
    have : n ≠ 0 := h0
    have : n ≠ 1 := h1
    have : n ≠ 2 := h2
    omega

@[simp] theorem Opcode.ofCode_code (op : Opcode) : Opcode.ofCode op.code = some op := by cases op <;> rfl

theorem Opcode.ofCode_eq_some {n : Nat} {op : Opcode} (h : Opcode.ofCode n = some op) : n = op.code := by
  unfold Opcode.ofCode at h
  split at h <;> cases h <;> rfl

/-- The recognised set of 30_encoding.md R72. -/
theorem Opcode.ofCode_eq_none {n : Nat} : Opcode.ofCode n = none ↔ n ∉ [1, 2, 3, 4, 5, 6, 7, 8, 9, 99] := by
  constructor
  · intro h hmem
    fin_cases hmem <;> cases h
  · intro h
    cases ho : Opcode.ofCode n with
    | none => rfl
    | some op =>
      exfalso
      apply h
      rw [Opcode.ofCode_eq_some ho]
      cases op <;> decide

theorem Opcode.code_lt (op : Opcode) : op.code < 100 := by cases op <;> decide

theorem Opcode.nparams_le (op : Opcode) : op.nparams ≤ 3 := by cases op <;> decide

@[simp] theorem Opcode.instr_opcode (op : Opcode) (p : Nat → Param) : (op.instr p).opcode = op := by
  cases op <;> rfl

theorem Opcode.instr_params (op : Opcode) (p : Nat → Param) :
    (op.instr p).params = (List.range op.nparams).map fun j => p (j + 1) := by
  cases op <;> rfl

theorem Instr.params_length (i : Instr) : i.params.length = i.opcode.nparams := by cases i <;> rfl

theorem Instr.width_eq (i : Instr) : i.width = i.opcode.nparams + 1 := by cases i <;> rfl

theorem Instr.width_le (i : Instr) : i.width ≤ 4 := by
  have := i.opcode.nparams_le
  rw [Instr.width_eq]
  omega

/-- An instruction is its opcode applied to its parameters. -/
theorem Instr.opcode_instr (i : Instr) (d : Param) : (i.opcode.instr fun j => i.params.getD (j - 1) d) = i := by
  cases i <;> rfl

/-! ### Modes -/

/-- Phase 3 accepts exactly when every digit is a mode, and answers those modes in order. -/
theorem decodeModes_ok_iff (w i n : Nat) (ms : List Mode) :
    decodeModes w i n = .ok ms ↔ ms.length = n ∧ ∀ j (h : j < ms.length), digit w (i + j + 1) = ms[j].digit := by
  induction n generalizing i ms with
  | zero => cases ms <;> simp [decodeModes]
  | succ n ih =>
    unfold decodeModes
    cases hm : Mode.ofDigit (digit w (i + 1)) with
    | none =>
      simp only [reduceCtorEq, false_iff, not_and]
      intro hlen hall
      have h0 := hall 0 (by omega)
      have hlt := Mode.ofDigit_eq_none.mp hm
      have hle := Mode.digit_le (ms[0]'(by omega))
      simp only [Nat.add_zero] at h0
      omega
    | some m =>
      have hd := Mode.ofDigit_eq_some hm
      cases hr : decodeModes w (i + 1) n with
      | error e =>
        simp only [reduceCtorEq, false_iff, not_and]
        intro hlen hall
        cases ms with
        | nil => simp at hlen
        | cons m' ms' =>
          have hok := (ih (i + 1) ms').mpr ⟨by simpa using hlen, fun j hj => by
            have := hall (j + 1) (by simpa using hj)
            simpa [Nat.add_assoc, Nat.add_comm, Nat.add_left_comm] using this⟩
          rw [hr] at hok
          cases hok
      | ok ms₀ =>
        have hms₀ := (ih (i + 1) ms₀).mp hr
        constructor
        · intro h
          obtain rfl := Except.ok.inj h
          refine ⟨by simp [hms₀.1], fun j hj => ?_⟩
          cases j with
          | zero => exact hd
          | succ j =>
            have := hms₀.2 j (by simpa using hj)
            simpa [Nat.add_assoc, Nat.add_comm, Nat.add_left_comm] using this
        · rintro ⟨hlen, hall⟩
          cases ms with
          | nil => simp at hlen
          | cons m' ms' =>
            have h0 : m.digit = m'.digit := hd.symm.trans (hall 0 (by simp))
            have hm' : m = m' := by
              have := congrArg Mode.ofDigit h0
              simpa using this
            have hok := (ih (i + 1) ms').mpr ⟨by simpa using hlen, fun j hj => by
              have := hall (j + 1) (by simpa using hj)
              simpa [Nat.add_assoc, Nat.add_comm, Nat.add_left_comm] using this⟩
            rw [hr] at hok
            rw [Except.ok.inj hok, hm']

theorem decodeModes_length {w i n : Nat} {ms : List Mode} (h : decodeModes w i n = .ok ms) : ms.length = n :=
  ((decodeModes_ok_iff w i n ms).mp h).1

/-- Phase 3 rejects at the first digit that is no mode (30_encoding.md R73). -/
theorem decodeModes_error {w i n : Nat} {e : DecodeError} (h : decodeModes w i n = .error e) :
    ∃ j, j < n ∧ 2 < digit w (i + j + 1) ∧ (∀ l, l < j → digit w (i + l + 1) ≤ 2) ∧
      e = .invalidMode (i + j) (digit w (i + j + 1)) := by
  induction n generalizing i with
  | zero => cases h
  | succ n ih =>
    unfold decodeModes at h
    cases hm : Mode.ofDigit (digit w (i + 1)) with
    | none =>
      rw [hm] at h
      exact ⟨0, by omega, Mode.ofDigit_eq_none.mp hm, fun l hl => absurd hl (by omega), (Except.error.inj h).symm⟩
    | some m =>
      rw [hm] at h
      have hd := Mode.ofDigit_eq_some hm
      cases hr : decodeModes w (i + 1) n with
      | ok ms => simp only [hr] at h; cases h
      | error e' =>
        simp only [hr] at h
        obtain rfl := Except.error.inj h
        obtain ⟨j, hj, hbad, hgood, he⟩ := ih hr
        have hi : i + 1 + j = i + (j + 1) := by omega
        rw [hi] at hbad he
        refine ⟨j + 1, by omega, hbad, fun l hl => ?_, he⟩
        cases l with
        | zero => have := Mode.digit_le m; simpa [hd] using this
        | succ l =>
          have := hgood l (by omega)
          have hl' : i + 1 + l = i + (l + 1) := by omega
          rwa [hl'] at this

/-! ### The head -/

/-- What an accepted instruction word is (40_execution_cycle.md R88 to R90). -/
theorem decodeHead_ok {strict : Bool} {w : Int} {h : Head} (hok : decodeHead strict w = .ok h) :
    0 ≤ w ∧ w.toNat % 100 = h.op.code ∧ decodeModes w.toNat 1 h.op.nparams = .ok h.modes ∧
      (strict = true → w.toNat / 10 ^ (h.op.nparams + 2) = 0) := by
  unfold decodeHead at hok
  split at hok
  · cases hok
  · rename_i h0
    split at hok
    · cases hok
    · rename_i op hop
      split at hok
      · cases hok
      · rename_i ms hms
        split at hok
        · cases hok
        · rename_i hs
          obtain rfl := Except.ok.inj hok
          refine ⟨by omega, Opcode.ofCode_eq_some hop, hms, fun hst => ?_⟩
          by_contra hne
          exact hs ⟨hst, hne⟩

/-- Every word that passes the checks of R88 to R90 is accepted. -/
theorem decodeHead_accepts {strict : Bool} {w : Int} {op : Opcode} {ms : List Mode} (h0 : 0 ≤ w)
    (hop : w.toNat % 100 = op.code) (hms : decodeModes w.toNat 1 op.nparams = .ok ms)
    (hs : strict = true → w.toNat / 10 ^ (op.nparams + 2) = 0) : decodeHead strict w = .ok ⟨op, ms⟩ := by
  have h0' : ¬w < 0 := by omega
  have hs' : ¬(strict = true ∧ w.toNat / 10 ^ (op.nparams + 2) ≠ 0) := fun h => h.2 (hs h.1)
  simp only [decodeHead, if_neg h0', hop, Opcode.ofCode_code, hms, if_neg hs']

@[simp] theorem Head.instr_opcode (h : Head) (raws : List Int) : (h.instr raws).opcode = h.op := by
  simp [Head.instr]

theorem Head.instr_params (h : Head) (raws : List Int) :
    (h.instr raws).params =
      (List.range h.nparams).map fun j => ⟨h.modes.getD j .position, raws.getD j 0⟩ := by
  simp [Head.instr, Opcode.instr_params, Head.nparams]

/-! ### The encoded instruction word -/

/-- The mode digits of an instruction as a number of their own: m1 + 10·m2 + 100·m3 (R84). -/
theorem encodeModes_eq (k : Nat) (ps : List Param) : encodeModes k ps = 10 ^ k * encodeModes 0 ps := by
  induction ps generalizing k with
  | nil => rfl
  | cons p ps ih =>
    rw [encodeModes, encodeModes, ih (k + 1), ih (0 + 1), pow_succ]
    ring

theorem encodeModes_lt (ps : List Param) : encodeModes 0 ps < 10 ^ ps.length := by
  induction ps with
  | nil => decide
  | cons p ps ih =>
    have := p.mode.digit_le
    rw [encodeModes, encodeModes_eq, List.length_cons, pow_succ]
    omega

theorem encodeHead_eq (i : Instr) : encodeHead i = i.opcode.code + 100 * encodeModes 0 i.params := by
  rw [encodeHead, encodeModes_eq 2]
  rfl

theorem encodeHead_mod (i : Instr) : encodeHead i % 100 = i.opcode.code := by
  have := i.opcode.code_lt
  rw [encodeHead_eq]
  omega

theorem encodeHead_lt (i : Instr) : encodeHead i < 10 ^ (i.opcode.nparams + 2) := by
  have h1 := i.opcode.code_lt
  have h2 := encodeModes_lt i.params
  rw [Instr.params_length] at h2
  rw [encodeHead_eq, pow_add]
  omega

theorem encode_length (i : Instr) : (encode i).length = i.width := by simp [encode, Instr.width]

end Sys2Proof
end

