-- ==== Sys2Proof/Laws/Driver.lean ====
section
/-!
SUPPORT. What the composition driver's operations do to the cores of a ring: a push reaches the tail of one queue, and
nothing else of any core (20_memory.md R64).
-/
namespace Sys2Proof.Machine

theorem pushInput_appends {v : Int} {s t : State} (h : pushInput v s = some t) : t = { s with inq := s.inq ++ [v] } := by
  unfold pushInput at h
  split at h
  · exact (Option.some.inj h).symm
  · cases h

variable (r : Ring) (i : Nat)

@[simp] theorem Ring.setCore_cores (s : State) : (r.setCore i s).cores = r.cores.set i s := rfl
@[simp] theorem Ring.setCore_turn (s : State) : (r.setCore i s).turn = r.turn := rfl
@[simp] theorem Ring.advance_cores : r.advance.cores = r.cores := rfl
@[simp] theorem Ring.advance_turn : r.advance.turn = r.after r.turn := rfl
@[simp] theorem Ring.react_cores (d : DriverReaction) : (r.react d).cores = (r.pushAll d.pushes).cores := rfl
@[simp] theorem Ring.react_turn (d : DriverReaction) : (r.react d).turn = d.next := rfl

@[simp] theorem Ring.push_length (v : Int) : (r.push i v).cores.length = r.cores.length := by
  unfold Ring.push
  split
  · rfl
  · split
    · rfl
    · simp

@[simp] theorem Ring.pushAll_length (qs : List (Nat × Int)) : (r.pushAll qs).cores.length = r.cores.length := by
  induction qs generalizing r with
  | nil => rfl
  | cons q qs ih => exact (ih _).trans (r.push_length q.1 q.2)

variable {r i} {j : Nat} {s : State}

/-- After a push every core is as before, up to values at the tail of its queue. -/
theorem Ring.push_core (v : Int) (h : r.cores[j]? = some s) :
    ∃ vs, (r.push i v).cores[j]? = some { s with inq := s.inq ++ vs } := by
  have unchanged : ∃ vs, r.cores[j]? = some { s with inq := s.inq ++ vs } := ⟨[], by simpa using h⟩
  unfold Ring.push
  split
  · exact unchanged
  · rename_i u hu
    split
    · exact unchanged
    · rename_i u' hp
      by_cases hij : i = j
      · subst hij
        obtain rfl : u = s := Option.some.inj (hu.symm.trans h)
        obtain ⟨hlt, -⟩ := List.getElem?_eq_some_iff.mp h
        exact ⟨[v], by simp [hlt, pushInput_appends hp]⟩
      · simpa [List.getElem?_set, hij] using unchanged

/-- After several pushes every core is as before, up to values at the tail of its queue. -/
theorem Ring.pushAll_core (qs : List (Nat × Int)) (h : r.cores[j]? = some s) :
    ∃ vs, (r.pushAll qs).cores[j]? = some { s with inq := s.inq ++ vs } := by
  induction qs generalizing r s with
  | nil => exact ⟨[], by simpa [Ring.pushAll] using h⟩
  | cons q qs ih =>
    obtain ⟨vs, hvs⟩ := Ring.push_core (i := q.1) q.2 h
    obtain ⟨ws, hws⟩ := ih hvs
    exact ⟨vs ++ ws, by simpa [Ring.pushAll] using hws⟩

/-- The instance whose turn it is becomes the state it ran to, and no other core changes. -/
theorem Ring.setCore_core {t : State} (h : r.cores[j]? = some s) :
    (r.setCore i t).cores[j]? = some (if i = j then t else s) := by
  obtain ⟨hlt, hs⟩ := List.getElem?_eq_some_iff.mp h
  by_cases hij : i = j <;> simp [hij, hlt, hs]

end Sys2Proof.Machine
end

