-- ==== Sys2Proof/Laws/State.lean ====
section
/-!
SUPPORT. One lemma per field per update of the state, so that no proof unfolds a record update.
-/
namespace Sys2Proof.Machine

variable (s : State)

/-! ### fail -/

@[simp] theorem State.fail_cfg (k : Failure) : (s.fail k).cfg = s.cfg := rfl
@[simp] theorem State.fail_mem (k : Failure) : (s.fail k).mem = s.mem := rfl
@[simp] theorem State.fail_ext (k : Failure) : (s.fail k).ext = s.ext := rfl
@[simp] theorem State.fail_ip (k : Failure) : (s.fail k).ip = s.ip := rfl
@[simp] theorem State.fail_rb (k : Failure) : (s.fail k).rb = s.rb := rfl
@[simp] theorem State.fail_inq (k : Failure) : (s.fail k).inq = s.inq := rfl
@[simp] theorem State.fail_log (k : Failure) : (s.fail k).log = s.log := rfl
@[simp] theorem State.fail_es (k : Failure) : (s.fail k).es = .failed k s.ip := rfl

/-! ### suspend -/

@[simp] theorem State.suspend_cfg : (s.suspend).cfg = s.cfg := rfl
@[simp] theorem State.suspend_mem : (s.suspend).mem = s.mem := rfl
@[simp] theorem State.suspend_ext : (s.suspend).ext = s.ext := rfl
@[simp] theorem State.suspend_ip : (s.suspend).ip = s.ip := rfl
@[simp] theorem State.suspend_rb : (s.suspend).rb = s.rb := rfl
@[simp] theorem State.suspend_inq : (s.suspend).inq = s.inq := rfl
@[simp] theorem State.suspend_log : (s.suspend).log = s.log := rfl
@[simp] theorem State.suspend_es : (s.suspend).es = .awaitingMoreInput := rfl

/-! ### retire -/

@[simp] theorem State.retire_cfg (n : Nat) (e : ExecState) : (s.retire n e).cfg = s.cfg := rfl
@[simp] theorem State.retire_mem (n : Nat) (e : ExecState) : (s.retire n e).mem = s.mem := rfl
@[simp] theorem State.retire_ext (n : Nat) (e : ExecState) : (s.retire n e).ext = s.ext := rfl
@[simp] theorem State.retire_ip (n : Nat) (e : ExecState) : (s.retire n e).ip = n := rfl
@[simp] theorem State.retire_rb (n : Nat) (e : ExecState) : (s.retire n e).rb = s.rb := rfl
@[simp] theorem State.retire_inq (n : Nat) (e : ExecState) : (s.retire n e).inq = s.inq := rfl
@[simp] theorem State.retire_log (n : Nat) (e : ExecState) : (s.retire n e).log = s.log := rfl
@[simp] theorem State.retire_es (n : Nat) (e : ExecState) : (s.retire n e).es = e := rfl

/-! ### writeWord -/

@[simp] theorem State.writeWord_cfg (a : Nat) (v : Int) : (s.writeWord a v).cfg = s.cfg := rfl
@[simp] theorem State.writeWord_mem (a : Nat) (v : Int) : (s.writeWord a v).mem = s.mem.write a v := rfl
@[simp] theorem State.writeWord_ext (a : Nat) (v : Int) : (s.writeWord a v).ext = max s.ext (a + 1) := rfl
@[simp] theorem State.writeWord_ip (a : Nat) (v : Int) : (s.writeWord a v).ip = s.ip := rfl
@[simp] theorem State.writeWord_rb (a : Nat) (v : Int) : (s.writeWord a v).rb = s.rb := rfl
@[simp] theorem State.writeWord_inq (a : Nat) (v : Int) : (s.writeWord a v).inq = s.inq := rfl
@[simp] theorem State.writeWord_log (a : Nat) (v : Int) : (s.writeWord a v).log = s.log := rfl
@[simp] theorem State.writeWord_es (a : Nat) (v : Int) : (s.writeWord a v).es = s.es := rfl

/-! ### setRb -/

@[simp] theorem State.setRb_cfg (r : Int) : (s.setRb r).cfg = s.cfg := rfl
@[simp] theorem State.setRb_mem (r : Int) : (s.setRb r).mem = s.mem := rfl
@[simp] theorem State.setRb_ext (r : Int) : (s.setRb r).ext = s.ext := rfl
@[simp] theorem State.setRb_ip (r : Int) : (s.setRb r).ip = s.ip := rfl
@[simp] theorem State.setRb_rb (r : Int) : (s.setRb r).rb = r := rfl
@[simp] theorem State.setRb_inq (r : Int) : (s.setRb r).inq = s.inq := rfl
@[simp] theorem State.setRb_log (r : Int) : (s.setRb r).log = s.log := rfl
@[simp] theorem State.setRb_es (r : Int) : (s.setRb r).es = s.es := rfl

/-! ### popInput -/

@[simp] theorem State.popInput_cfg : (s.popInput).cfg = s.cfg := rfl
@[simp] theorem State.popInput_mem : (s.popInput).mem = s.mem := rfl
@[simp] theorem State.popInput_ext : (s.popInput).ext = s.ext := rfl
@[simp] theorem State.popInput_ip : (s.popInput).ip = s.ip := rfl
@[simp] theorem State.popInput_rb : (s.popInput).rb = s.rb := rfl
@[simp] theorem State.popInput_inq : (s.popInput).inq = s.inq.tail := rfl
@[simp] theorem State.popInput_log : (s.popInput).log = s.log := rfl
@[simp] theorem State.popInput_es : (s.popInput).es = s.es := rfl

/-! ### appendLog -/

@[simp] theorem State.appendLog_cfg (v : Int) : (s.appendLog v).cfg = s.cfg := rfl
@[simp] theorem State.appendLog_mem (v : Int) : (s.appendLog v).mem = s.mem := rfl
@[simp] theorem State.appendLog_ext (v : Int) : (s.appendLog v).ext = s.ext := rfl
@[simp] theorem State.appendLog_ip (v : Int) : (s.appendLog v).ip = s.ip := rfl
@[simp] theorem State.appendLog_rb (v : Int) : (s.appendLog v).rb = s.rb := rfl
@[simp] theorem State.appendLog_inq (v : Int) : (s.appendLog v).inq = s.inq := rfl
@[simp] theorem State.appendLog_log (v : Int) : (s.appendLog v).log = s.log ++ [v] := rfl
@[simp] theorem State.appendLog_es (v : Int) : (s.appendLog v).es = s.es := rfl

/-! ### Reading a word depends on the memory alone -/

theorem State.readWord_congr {s t : State} (h : s.mem = t.mem) (a : Nat) : s.readWord a = t.readWord a := by
  simp [State.readWord, h]

@[simp] theorem State.fail_readWord (k : Failure) (x : Nat) : (s.fail k).readWord x = s.readWord x := rfl
@[simp] theorem State.suspend_readWord (x : Nat) : s.suspend.readWord x = s.readWord x := rfl
@[simp] theorem State.retire_readWord (n : Nat) (e : ExecState) (x : Nat) : (s.retire n e).readWord x = s.readWord x := rfl
@[simp] theorem State.setRb_readWord (r : Int) (x : Nat) : (s.setRb r).readWord x = s.readWord x := rfl
@[simp] theorem State.popInput_readWord (x : Nat) : s.popInput.readWord x = s.readWord x := rfl
@[simp] theorem State.appendLog_readWord (v : Int) (x : Nat) : (s.appendLog v).readWord x = s.readWord x := rfl

@[simp] theorem ExecState.terminal_continuing : ExecState.continuing.terminal = false := rfl
@[simp] theorem ExecState.terminal_awaitingMoreInput : ExecState.awaitingMoreInput.terminal = false := rfl
@[simp] theorem ExecState.terminal_producedOutput (v : Int) : (ExecState.producedOutput v).terminal = false := rfl
@[simp] theorem ExecState.terminal_halted : ExecState.halted.terminal = true := rfl
@[simp] theorem ExecState.terminal_failed (k : Failure) (n : Nat) : (ExecState.failed k n).terminal = true := rfl

end Sys2Proof.Machine
end

