-- ==== Sys2Proof/Laws/Memory.lean ====
section
/-!
SUPPORT. The laws of memory: a read after a write, and that every operation keeps the canonical form.
-/
namespace Sys2Proof.Machine

/-! ### Read after write -/

theorem Memory.read_erase_same (m : Memory) (a : Nat) : (m.erase a).read a = 0 := by
  induction m with
  | nil => rfl
  | cons p m ih =>
    by_cases h : p.1 = a
    · simpa [Memory.erase, List.filter_cons, h] using ih
    · simpa [Memory.erase, List.filter_cons, h, Memory.read] using ih

theorem Memory.read_erase_other (m : Memory) {a b : Nat} (hab : b ≠ a) : (m.erase a).read b = m.read b := by
  induction m with
  | nil => rfl
  | cons p m ih =>
    by_cases h : p.1 = a
    · have hb : a ≠ b := Ne.symm hab
      simpa [Memory.erase, h, Memory.read, hb] using ih
    · by_cases hb : p.1 = b
      · simp [Memory.erase, Memory.read, hb, hab]
      · simpa [Memory.erase, List.filter_cons, h, Memory.read, hb] using ih

theorem Memory.read_insert_other (m : Memory) {a b : Nat} (v : Int) (hab : b ≠ a) :
    (Memory.insert a v m).read b = m.read b := by
  induction m with
  | nil => simp [Memory.insert, Memory.read, Ne.symm hab]
  | cons p m ih =>
    unfold Memory.insert
    split
    · simp [Memory.read, Ne.symm hab]
    · simp [Memory.read, ih]

theorem Memory.read_insert_same (m : Memory) (a : Nat) (v : Int) (h : ∀ p ∈ m, p.1 ≠ a) :
    (Memory.insert a v m).read a = v := by
  induction m with
  | nil => simp [Memory.insert, Memory.read]
  | cons p m ih =>
    unfold Memory.insert
    split
    · simp [Memory.read]
    · have hp : p.1 ≠ a := h p (by simp)
      simpa [Memory.read, hp] using ih fun q hq => h q (by simp [hq])

theorem Memory.mem_erase {m : Memory} {a : Nat} {p : Nat × Int} : p ∈ m.erase a ↔ p ∈ m ∧ p.1 ≠ a := by
  simp [Memory.erase]

/-- A read after a write gives the written word there, and the old word everywhere else (20_memory.md R46, R47). -/
theorem Memory.read_write (m : Memory) (a : Nat) (v : Int) (b : Nat) :
    (m.write a v).read b = if b = a then v else m.read b := by
  unfold Memory.write
  by_cases hv : v = 0 <;> by_cases hb : b = a
  · subst hb; simp [hv, Memory.read_erase_same]
  · simp [hv, hb, Memory.read_erase_other]
  · subst hb
    simpa [hv] using Memory.read_insert_same _ b v fun p hp => (Memory.mem_erase.mp hp).2
  · simp [hv, hb, Memory.read_insert_other, Memory.read_erase_other]

@[simp] theorem State.readWord_writeWord (s : State) (a : Nat) (v : Int) (b : Nat) :
    (s.writeWord a v).readWord b = if b = a then v else s.readWord b :=
  Memory.read_write s.mem a v b

/-! ### What is listed after a write -/

theorem Memory.mem_insert {m : Memory} {a : Nat} {v : Int} {p : Nat × Int} :
    p ∈ Memory.insert a v m ↔ p = (a, v) ∨ p ∈ m := by
  induction m with
  | nil => simp [Memory.insert]
  | cons q m ih =>
    unfold Memory.insert
    split
    · simp
    · simp only [List.mem_cons, ih]; tauto

/-- A cell listed after a write is the written one or was listed before. -/
theorem Memory.mem_write {m : Memory} {a : Nat} {v : Int} {p : Nat × Int} (h : p ∈ m.write a v) :
    p = (a, v) ∨ (p ∈ m ∧ p.1 ≠ a) := by
  unfold Memory.write at h
  split at h
  · exact .inr (Memory.mem_erase.mp h)
  · rw [Memory.mem_insert, Memory.mem_erase] at h
    exact h

/-! ### The canonical form -/

theorem Memory.nil_wf : Memory.wf [] := by simp [Memory.wf]

theorem Memory.erase_wf {m : Memory} (h : m.wf) (a : Nat) : (m.erase a).wf :=
  ⟨h.1.filter _, fun p hp => h.2 p (Memory.mem_erase.mp hp).1⟩

theorem Memory.insert_wf {m : Memory} (h : m.wf) {a : Nat} {v : Int} (hv : v ≠ 0) (ha : ∀ p ∈ m, p.1 ≠ a) :
    (Memory.insert a v m).wf := by
  refine ⟨?_, ?_⟩
  · induction m with
    | nil => simp [Memory.insert]
    | cons q m ih =>
      obtain ⟨hlt, htail⟩ := List.pairwise_cons.mp h.1
      unfold Memory.insert
      split
      · rename_i haq
        refine List.pairwise_cons.mpr ⟨fun p hp => ?_, h.1⟩
        rcases List.mem_cons.mp hp with rfl | hp
        · exact haq
        · exact lt_trans haq (hlt p hp)
      · rename_i haq
        have hqa : q.1 ≠ a := ha q (by simp)
        refine List.pairwise_cons.mpr ⟨fun p hp => ?_, ?_⟩
        · rcases Memory.mem_insert.mp hp with rfl | hp
          · show q.1 < a
            omega
          · exact hlt p hp
        · exact ih ⟨htail, fun p hp => h.2 p (by simp [hp])⟩ fun p hp => ha p (by simp [hp])
  · intro p hp
    rcases Memory.mem_insert.mp hp with rfl | hp
    · exact hv
    · exact h.2 p hp

/-- A write keeps the canonical form. -/
theorem Memory.write_wf {m : Memory} (h : m.wf) (a : Nat) (v : Int) : (m.write a v).wf := by
  unfold Memory.write
  split
  · exact Memory.erase_wf h a
  · rename_i hv
    exact Memory.insert_wf (Memory.erase_wf h a) hv fun p hp => (Memory.mem_erase.mp hp).2

/-! ### The image of a program -/

theorem Memory.mem_ofImage {a : Nat} {vs : List Int} {p : Nat × Int} (h : p ∈ Memory.ofImage a vs) :
    a ≤ p.1 ∧ p.1 < a + vs.length ∧ p.2 ∈ vs ∧ p.2 ≠ 0 := by
  induction vs generalizing a with
  | nil => simp [Memory.ofImage] at h
  | cons v vs ih =>
    unfold Memory.ofImage at h
    split at h
    · obtain ⟨h1, h2, h3, h4⟩ := ih h
      exact ⟨by omega, by simp; omega, by simp [h3], h4⟩
    · rename_i hv
      rcases List.mem_cons.mp h with rfl | h
      · exact ⟨le_refl _, by simp, by simp, hv⟩
      · obtain ⟨h1, h2, h3, h4⟩ := ih h
        exact ⟨by omega, by simp; omega, by simp [h3], h4⟩

/-- An image is loaded in canonical form. -/
theorem Memory.ofImage_wf (a : Nat) (vs : List Int) : (Memory.ofImage a vs).wf := by
  refine ⟨?_, fun p hp => (Memory.mem_ofImage hp).2.2.2⟩
  induction vs generalizing a with
  | nil => simp [Memory.ofImage]
  | cons v vs ih =>
    unfold Memory.ofImage
    split
    · exact ih (a + 1)
    · refine List.pairwise_cons.mpr ⟨fun p hp => ?_, ih (a + 1)⟩
      have := (Memory.mem_ofImage hp).1
      show a < p.1
      omega

/-- A loaded image holds its words in order, and 0 elsewhere (10_state.md R44). -/
theorem Memory.read_ofImage (a : Nat) (vs : List Int) (b : Nat) :
    (Memory.ofImage a vs).read b = if a ≤ b then vs.getD (b - a) 0 else 0 := by
  induction vs generalizing a with
  | nil => simp [Memory.ofImage, Memory.read]
  | cons v vs ih =>
    unfold Memory.ofImage
    rcases Nat.lt_trichotomy b a with h | h | h
    · have h1 : ¬a + 1 ≤ b := by omega
      have h3 : ¬a = b := by omega
      split <;> simp [Memory.read, ih, h1, h3] <;> exact fun hab => absurd hab (by omega)
    · subst h
      split <;> rename_i hv <;> simp [Memory.read, ih, hv]
    · obtain ⟨n, rfl⟩ : ∃ n, b = a + 1 + n := ⟨b - (a + 1), by omega⟩
      have h3 : ¬a = a + 1 + n := by omega
      have h4 : a + 1 + n - a = n + 1 := by omega
      split <;> simp [Memory.read, ih, h3, h4] <;> omega

/-- A state reads 0 at every address that is not listed (20_memory.md R46). -/
theorem Memory.read_unlisted {m : Memory} {a : Nat} (h : ∀ p ∈ m, p.1 ≠ a) : m.read a = 0 := by
  induction m with
  | nil => rfl
  | cons p m ih =>
    have hp : p.1 ≠ a := h p (by simp)
    simpa [Memory.read, hp] using ih fun q hq => h q (by simp [hq])

/-- A word read from memory is a listed cell or 0. -/
theorem Memory.read_mem_or_zero (m : Memory) (a : Nat) : (a, m.read a) ∈ m ∨ m.read a = 0 := by
  induction m with
  | nil => exact .inr rfl
  | cons p m ih =>
    by_cases h : p.1 = a
    · exact .inl (by subst h; simp [Memory.read])
    · simp only [Memory.read, h, if_false]
      exact ih.imp_left fun h => List.mem_cons_of_mem _ h

/-- Equal memories in canonical form read alike only if they are the same list. -/
theorem Memory.ext_of_read {m n : Memory} (hm : m.wf) (hn : n.wf) (h : ∀ a, m.read a = n.read a) : m = n := by
  induction m generalizing n with
  | nil =>
    cases n with
    | nil => rfl
    | cons q n => exact absurd (h q.1).symm (by simpa [Memory.read] using hn.2 q (by simp))
  | cons p m ih =>
    cases n with
    | nil => exact absurd (h p.1) (by simpa [Memory.read] using hm.2 p (by simp))
    | cons q n =>
      obtain ⟨hpm, hm'⟩ := List.pairwise_cons.mp hm.1
      obtain ⟨hqn, hn'⟩ := List.pairwise_cons.mp hn.1
      have hp0 := hm.2 p (by simp)
      have hq0 := hn.2 q (by simp)
      have hkey : p.1 = q.1 := by
        rcases Nat.lt_trichotomy p.1 q.1 with hlt | heq | hlt
        · refine absurd (h p.1) ?_
          rw [Memory.read_unlisted (m := q :: n)]
          · simpa [Memory.read] using hp0
          · intro r hr
            rcases List.mem_cons.mp hr with rfl | hr
            · omega
            · have := hqn r hr; omega
        · exact heq
        · refine absurd (h q.1) ?_
          rw [Memory.read_unlisted (m := p :: m)]
          · simpa [Memory.read] using hq0.symm
          · intro r hr
            rcases List.mem_cons.mp hr with rfl | hr
            · omega
            · have := hpm r hr; omega
      have hval : p.2 = q.2 := by simpa [Memory.read, hkey] using h q.1
      have htail : m = n := by
        refine ih ⟨hm', fun r hr => hm.2 r (by simp [hr])⟩ ⟨hn', fun r hr => hn.2 r (by simp [hr])⟩ fun a => ?_
        by_cases ha : q.1 = a
        · rw [Memory.read_unlisted fun r hr => by have := hpm r hr; omega,
            Memory.read_unlisted fun r hr => by have := hqn r hr; omega]
        · simpa [Memory.read, hkey, ha] using h a
      rw [htail, Prod.ext hkey hval]

end Sys2Proof.Machine
end

