-- ==== Sys2Proof/Laws/Operands.lean ====
section
/-!
SUPPORT. What the parameter resolver answers, once and for all: a resolved operand is the one the spec's table of modes
gives, and a failure is one of the three range failures or the write-target failure.
-/
namespace Sys2Proof.Machine

/-! ### The range check -/

theorem checkAddress_ok_iff (c : Config) (neg : Int → Failure) (a : Int) (n : Nat) :
    checkAddress c neg a = .ok n ↔ AddressOk c a ∧ n = a.toNat := by
  unfold checkAddress AddressOk
  split
  · simp; omega
  · split
    · simp; omega
    · simp only [Except.ok.injEq]
      constructor
      · intro h; exact ⟨⟨by omega, by omega⟩, h.symm⟩
      · intro h; exact h.2.symm

theorem checkAddress_negative (c : Config) (neg : Int → Failure) {a : Int} (h : a < 0) :
    checkAddress c neg a = .error (neg a) := by
  simp [checkAddress, h]

theorem checkAddress_above (c : Config) (neg : Int → Failure) {a : Int} (h : (c.addrMax : Int) < a) :
    checkAddress c neg a = .error (.addressOutOfRange a.toNat) := by
  have h0 : ¬a < 0 := by omega
  simp [checkAddress, h, h0]

/-- The range check answers an address memory has, or one of its two failures. -/
theorem checkAddress_cases (c : Config) (neg : Int → Failure) (a : Int) :
    (AddressOk c a ∧ checkAddress c neg a = .ok a.toNat) ∨
      (a < 0 ∧ checkAddress c neg a = .error (neg a)) ∨
      ((c.addrMax : Int) < a ∧ checkAddress c neg a = .error (.addressOutOfRange a.toNat)) := by
  by_cases h0 : a < 0
  · exact .inr (.inl ⟨h0, checkAddress_negative c neg h0⟩)
  · by_cases h1 : (c.addrMax : Int) < a
    · exact .inr (.inr ⟨h1, checkAddress_above c neg h1⟩)
    · have hok : AddressOk c a := ⟨by omega, by omega⟩
      exact .inl ⟨hok, (checkAddress_ok_iff c neg a _).mpr ⟨hok, rfl⟩⟩

/-! ### Reads -/

theorem resolveRead_ok_iff (s : State) (p : Param) (v : Int) :
    resolveRead s p = .ok v ↔ Readable s p ∧ v = operandValue s p := by
  unfold resolveRead Readable operandValue positionAddress relativeAddress
  cases hm : p.mode
  · rcases checkAddress_cases s.cfg .invalidAddress p.raw with ⟨hok, h⟩ | ⟨hlt, h⟩ | ⟨hlt, h⟩
    · simp only [h, readAt, Except.ok.injEq]
      exact ⟨fun hv => ⟨hok, hv.symm⟩, fun hv => hv.2.symm⟩
    · simp only [h, readAt, reduceCtorEq, false_iff, not_and, AddressOk]; omega
    · simp only [h, readAt, reduceCtorEq, false_iff, not_and, AddressOk]; omega
  · simp [eq_comm]
  · rcases checkAddress_cases s.cfg .arithmeticConversion (s.rb + p.raw) with ⟨hok, h⟩ | ⟨hlt, h⟩ | ⟨hlt, h⟩
    · simp only [h, readAt, Except.ok.injEq]
      exact ⟨fun hv => ⟨hok, hv.symm⟩, fun hv => hv.2.symm⟩
    · simp only [h, readAt, reduceCtorEq, false_iff, not_and, AddressOk]; omega
    · simp only [h, readAt, reduceCtorEq, false_iff, not_and, AddressOk]; omega

theorem resolveRead_readable {s : State} {p : Param} (h : Readable s p) :
    resolveRead s p = .ok (operandValue s p) :=
  (resolveRead_ok_iff s p _).mpr ⟨h, rfl⟩

/-- A resolved read or the failure of an unreadable parameter. -/
theorem resolveRead_cases (s : State) (p : Param) :
    (Readable s p ∧ resolveRead s p = .ok (operandValue s p)) ∨ ∃ k, resolveRead s p = .error k := by
  cases h : resolveRead s p with
  | error k => exact .inr ⟨k, rfl⟩
  | ok v =>
    obtain ⟨hr, rfl⟩ := (resolveRead_ok_iff s p v).mp h
    exact .inl ⟨hr, rfl⟩

/-- The failures of a read parameter (60_exceptions.md R125, phase 6). -/
theorem resolveRead_error {s : State} {p : Param} {k : Failure} (h : resolveRead s p = .error k) :
    (p.mode = .position ∧ p.raw < 0 ∧ k = .invalidAddress p.raw) ∨
      (p.mode = .relative ∧ s.rb + p.raw < 0 ∧ k = .arithmeticConversion (s.rb + p.raw)) ∨
      ∃ n : Nat, s.cfg.addrMax < n ∧ k = .addressOutOfRange n := by
  unfold resolveRead positionAddress relativeAddress at h
  cases hm : p.mode <;> simp only [hm] at h
  · rcases checkAddress_cases s.cfg .invalidAddress p.raw with ⟨_, h'⟩ | ⟨hlt, h'⟩ | ⟨hlt, h'⟩ <;>
      simp only [h', readAt, reduceCtorEq, Except.error.injEq] at h
    · exact .inl ⟨rfl, hlt, h.symm⟩
    · exact .inr (.inr ⟨p.raw.toNat, by omega, h.symm⟩)
  · simp at h
  · rcases checkAddress_cases s.cfg .arithmeticConversion (s.rb + p.raw) with ⟨_, h'⟩ | ⟨hlt, h'⟩ | ⟨hlt, h'⟩ <;>
      simp only [h', readAt, reduceCtorEq, Except.error.injEq] at h
    · exact .inr (.inl ⟨rfl, hlt, h.symm⟩)
    · exact .inr (.inr ⟨(s.rb + p.raw).toNat, by omega, h.symm⟩)

/-! ### Write addresses -/

theorem resolveWriteAddress_ok_iff (s : State) (i : Nat) (p : Param) (d : Nat) :
    resolveWriteAddress s i p = .ok d ↔ Writable s p ∧ d = destination s p := by
  unfold resolveWriteAddress Writable destination positionAddress relativeAddress
  cases hm : p.mode
  · exact checkAddress_ok_iff _ _ _ _
  · simp
  · exact checkAddress_ok_iff _ _ _ _

theorem resolveWriteAddress_writable {s : State} {p : Param} (i : Nat) (h : Writable s p) :
    resolveWriteAddress s i p = .ok (destination s p) :=
  (resolveWriteAddress_ok_iff s i p _).mpr ⟨h, rfl⟩

/-- The failures of a write parameter (60_exceptions.md R125, phase 6). -/
theorem resolveWriteAddress_error {s : State} {i : Nat} {p : Param} {k : Failure}
    (h : resolveWriteAddress s i p = .error k) :
    (p.mode = .position ∧ p.raw < 0 ∧ k = .invalidAddress p.raw) ∨
      (p.mode = .immediate ∧ k = .invalidWriteTarget i) ∨
      (p.mode = .relative ∧ s.rb + p.raw < 0 ∧ k = .arithmeticConversion (s.rb + p.raw)) ∨
      ∃ n : Nat, s.cfg.addrMax < n ∧ k = .addressOutOfRange n := by
  unfold resolveWriteAddress positionAddress relativeAddress at h
  cases hm : p.mode <;> simp only [hm] at h
  · rcases checkAddress_cases s.cfg .invalidAddress p.raw with ⟨_, h'⟩ | ⟨hlt, h'⟩ | ⟨hlt, h'⟩ <;>
      simp only [h', reduceCtorEq, Except.error.injEq] at h
    · exact .inl ⟨rfl, hlt, h.symm⟩
    · exact .inr (.inr (.inr ⟨p.raw.toNat, by omega, h.symm⟩))
  · exact .inr (.inl ⟨rfl, (Except.error.inj h).symm⟩)
  · rcases checkAddress_cases s.cfg .arithmeticConversion (s.rb + p.raw) with ⟨_, h'⟩ | ⟨hlt, h'⟩ | ⟨hlt, h'⟩ <;>
      simp only [h', reduceCtorEq, Except.error.injEq] at h
    · exact .inr (.inr (.inl ⟨rfl, hlt, h.symm⟩))
    · exact .inr (.inr (.inr ⟨(s.rb + p.raw).toNat, by omega, h.symm⟩))

/-- A destination is an address memory has. -/
theorem destination_le {s : State} {p : Param} (h : Writable s p) : destination s p ≤ s.cfg.addrMax := by
  unfold Writable AddressOk at h
  unfold destination
  cases hm : p.mode <;> simp only [hm] at h ⊢ <;> omega

/-! ### Jump targets -/

theorem jumpTarget_ok_iff (t : Int) (n : Nat) : jumpTarget t = .ok n ↔ 0 ≤ t ∧ n = t.toNat := by
  unfold jumpTarget
  split
  · simp; omega
  · simp [eq_comm]; omega

theorem jumpTarget_negative {t : Int} (h : t < 0) : jumpTarget t = .error (.invalidAddress t) := by
  simp [jumpTarget, h]

/-! ### Results -/

/-- The result of `arith` is the exact value, the reduced value, or the overflow failure. -/
theorem arith_cases (c : Config) (r : Int) :
    (InW c.w r ∧ arith c r = .ok r) ∨
      (¬InW c.w r ∧ c.ovf = .wrap ∧ arith c r = .ok (wrapW c r)) ∨
      (¬InW c.w r ∧ c.ovf = .fault ∧ arith c r = .error (.arithmeticOverflow r)) := by
  unfold arith
  by_cases h : InW c.w r
  · exact .inl ⟨h, by simp [h]⟩
  · cases ho : c.ovf
    · exact .inr (.inr ⟨h, rfl, by rw [if_neg h]⟩)
    · exact .inr (.inl ⟨h, rfl, by rw [if_neg h]⟩)

/-- 2^W = 2 · 2^(W-1) for a positive width. -/
theorem two_pow_eq {w : Nat} (h : 1 ≤ w) : (2 ^ w : Nat) = 2 * 2 ^ (w - 1) := by
  obtain ⟨n, rfl⟩ : ∃ n, w = n + 1 := ⟨w - 1, by omega⟩
  simp [Nat.pow_succ, Nat.mul_comm]

/-- The reduced value is a word (00_scope.md R14). -/
theorem wrapW_inW {c : Config} (h : c.wf) (v : Int) : InW c.w (wrapW c v) := by
  have hp : 0 < 2 ^ c.w := Nat.two_pow_pos _
  have h2 := two_pow_eq (w := c.w) (by have : 2 ≤ c.w := h; omega)
  have hle := Int.le_bmod (x := v) hp
  have hlt := Int.bmod_lt (x := v) hp
  unfold InW wordMin wordMax wrapW
  omega

/-- The result of `arith` is a word. -/
theorem arith_inW {c : Config} (h : c.wf) {r v : Int} (hr : arith c r = .ok v) : InW c.w v := by
  rcases arith_cases c r with ⟨hi, h'⟩ | ⟨_, _, h'⟩ | ⟨_, _, h'⟩ <;> rw [h'] at hr
  · exact Except.ok.inj hr ▸ hi
  · exact Except.ok.inj hr ▸ wrapW_inW h r
  · cases hr

/-- At a width of at least 2, -2, -1, 0 and 1 are words. -/
theorem small_inW {w : Nat} (h : 2 ≤ w) {v : Int} (h1 : -2 ≤ v) (h2 : v ≤ 1) : InW w v := by
  have h3 : 2 ^ 1 ≤ 2 ^ (w - 1) := Nat.pow_le_pow_right (by omega) (by omega)
  unfold InW wordMin wordMax
  omega

theorem truthWord_inW {w : Nat} (h : 2 ≤ w) (b : Bool) : InW w (truthWord b) := by
  cases b <;> exact small_inW h (by simp [truthWord]) (by simp [truthWord])

end Sys2Proof.Machine
end

