-- ==== Sys2Proof/Laws/Meaning.lean ====
section
/-!
SUPPORT. What each shared operation of the meanings can do, said once: where it completes, and an inversion lemma that
names every next state it can answer.
-/
namespace Sys2Proof.Machine

/-! ### Sequencing -/

@[simp] theorem ok_bind {α β : Type} (x : α) (f : α → Except Failure β) : (Except.ok x >>= f) = f x := rfl

@[simp] theorem error_bind {α β : Type} (k : Failure) (f : α → Except Failure β) :
    ((Except.error k : Except Failure α) >>= f) = .error k := rfl

@[simp] theorem pure_eq_ok {α : Type} (x : α) : (pure x : Except Failure α) = .ok x := rfl

@[simp] theorem settle_ok (s t : State) : settle s (.ok t) = .next t := rfl

@[simp] theorem settle_error (s : State) (k : Failure) : settle s (.error k) = .next (s.fail k) := rfl

/-- A settled step always answers a next state. -/
theorem settle_total (s : State) (r : Except Failure State) : ∃ t, settle s r = .next t := by
  cases r with
  | ok t => exact ⟨t, rfl⟩
  | error k => exact ⟨s.fail k, rfl⟩

theorem next_inj {s t : State} (h : (Host.Outcome.next s : Outcome) = .next t) : s = t := Host.Outcome.next.inj h

/-! ### Instructions that store a computed word: ADD, MUL, LT, EQ -/

section Store

variable {f : Int → Int → Except Failure Int} {a b dest : Param} {s t : State}

theorem storeResult_completes {r : Int} (ha : Readable s a) (hb : Readable s b) (hd : Writable s dest)
    (hr : f (operandValue s a) (operandValue s b) = .ok r) :
    storeResult f a b dest s = .next ((s.writeWord (destination s dest) r).retire (s.ip + 4) .continuing) := by
  simp [storeResult, resolveRead_readable ha, resolveRead_readable hb, resolveWriteAddress_writable 3 hd, hr]

/-- The first failure in parameter order, then the computation's own, is the one reported (60_exceptions.md R131). -/
inductive StoreFailure (f : Int → Int → Except Failure Int) (a b dest : Param) (s : State) (k : Failure) : Prop where
  | first (h : resolveRead s a = .error k)
  | second (ha : Readable s a) (h : resolveRead s b = .error k)
  | target (ha : Readable s a) (hb : Readable s b) (h : resolveWriteAddress s 3 dest = .error k)
  | result (ha : Readable s a) (hb : Readable s b) (hd : Writable s dest)
      (h : f (operandValue s a) (operandValue s b) = .error k)

theorem storeResult_fails {k : Failure} (h : StoreFailure f a b dest s k) :
    storeResult f a b dest s = .next (s.fail k) := by
  cases h with
  | first h => simp [storeResult, h]
  | second ha h => simp [storeResult, resolveRead_readable ha, h]
  | target ha hb h => simp [storeResult, resolveRead_readable ha, resolveRead_readable hb, h]
  | result ha hb hd h =>
    simp [storeResult, resolveRead_readable ha, resolveRead_readable hb, resolveWriteAddress_writable 3 hd, h]

theorem storeResult_cases (h : storeResult f a b dest s = .next t) :
    (∃ k, StoreFailure f a b dest s k ∧ t = s.fail k) ∨
      ∃ r, Readable s a ∧ Readable s b ∧ Writable s dest ∧ f (operandValue s a) (operandValue s b) = .ok r ∧
        t = (s.writeWord (destination s dest) r).retire (s.ip + 4) .continuing := by
  rcases resolveRead_cases s a with ⟨ha, _⟩ | ⟨k, hk⟩
  · rcases resolveRead_cases s b with ⟨hb, _⟩ | ⟨k, hk⟩
    · cases hw : resolveWriteAddress s 3 dest with
      | error k =>
        have hf : StoreFailure f a b dest s k := .target ha hb hw
        exact .inl ⟨k, hf, next_inj (h.symm.trans (storeResult_fails hf))⟩
      | ok d =>
        obtain ⟨hd, rfl⟩ := (resolveWriteAddress_ok_iff s 3 dest d).mp hw
        cases hr : f (operandValue s a) (operandValue s b) with
        | error k =>
          have hf : StoreFailure f a b dest s k := .result ha hb hd hr
          exact .inl ⟨k, hf, next_inj (h.symm.trans (storeResult_fails hf))⟩
        | ok r => exact .inr ⟨r, ha, hb, hd, rfl, next_inj (h.symm.trans (storeResult_completes ha hb hd hr))⟩
    · have hf : StoreFailure f a b dest s k := .second ha hk
      exact .inl ⟨k, hf, next_inj (h.symm.trans (storeResult_fails hf))⟩
  · have hf : StoreFailure f a b dest s k := .first hk
    exact .inl ⟨k, hf, next_inj (h.symm.trans (storeResult_fails hf))⟩

end Store

/-! ### IN and OUT -/

theorem takeInput_empty {s : State} (d : Nat) (h : s.inq = []) : takeInput d s = s.suspend := by
  simp [takeInput, h]

theorem takeInput_front {s : State} (d : Nat) {x : Int} {xs : List Int} (h : s.inq = x :: xs) :
    takeInput d s = (s.popInput.writeWord d x).retire (s.ip + 2) .continuing := by
  simp [takeInput, h]

theorem execInp_writable {s : State} {dest : Param} (h : Writable s dest) :
    execInp dest s = .next (takeInput (destination s dest) s) := by
  simp [execInp, resolveWriteAddress_writable 1 h]

theorem execInp_fails {s : State} {dest : Param} {k : Failure} (h : resolveWriteAddress s 1 dest = .error k) :
    execInp dest s = .next (s.fail k) := by
  simp [execInp, h]

theorem execInp_cases {s t : State} {dest : Param} (h : execInp dest s = .next t) :
    (∃ k, resolveWriteAddress s 1 dest = .error k ∧ t = s.fail k) ∨
      (Writable s dest ∧ s.inq = [] ∧ t = s.suspend) ∨
      ∃ x xs, Writable s dest ∧ s.inq = x :: xs ∧
        t = (s.popInput.writeWord (destination s dest) x).retire (s.ip + 2) .continuing := by
  cases hw : resolveWriteAddress s 1 dest with
  | error k => exact .inl ⟨k, rfl, next_inj (h.symm.trans (execInp_fails hw))⟩
  | ok d =>
    have hd := ((resolveWriteAddress_ok_iff s 1 dest d).mp hw).1
    have ht := next_inj (h.symm.trans (execInp_writable hd))
    cases hq : s.inq with
    | nil => exact .inr (.inl ⟨hd, rfl, ht.trans (takeInput_empty _ hq)⟩)
    | cons x xs => exact .inr (.inr ⟨x, xs, hd, rfl, ht.trans (takeInput_front _ hq)⟩)

theorem execOut_readable {s : State} {a : Param} (h : Readable s a) :
    execOut a s = .next ((s.appendLog (operandValue s a)).retire (s.ip + 2) (.producedOutput (operandValue s a))) := by
  simp [execOut, resolveRead_readable h]

theorem execOut_fails {s : State} {a : Param} {k : Failure} (h : resolveRead s a = .error k) :
    execOut a s = .next (s.fail k) := by
  simp [execOut, h]

theorem execOut_cases {s t : State} {a : Param} (h : execOut a s = .next t) :
    (∃ k, resolveRead s a = .error k ∧ t = s.fail k) ∨
      (Readable s a ∧
        t = (s.appendLog (operandValue s a)).retire (s.ip + 2) (.producedOutput (operandValue s a))) := by
  rcases resolveRead_cases s a with ⟨ha, _⟩ | ⟨k, hk⟩
  · exact .inr ⟨ha, next_inj (h.symm.trans (execOut_readable ha))⟩
  · exact .inl ⟨k, hk, next_inj (h.symm.trans (execOut_fails hk))⟩

/-! ### Jumps -/

section Jump

variable {taken : Int → Bool} {a target : Param} {s t : State}

theorem jumpWhen_taken (ha : Readable s a) (ht : Readable s target) (hj : taken (operandValue s a) = true)
    (hn : 0 ≤ operandValue s target) :
    jumpWhen taken a target s = .next (s.retire (operandValue s target).toNat .continuing) := by
  have h := (jumpTarget_ok_iff (operandValue s target) _).mpr ⟨hn, rfl⟩
  simp [jumpWhen, resolveRead_readable ha, resolveRead_readable ht, hj, h]

theorem jumpWhen_notTaken (ha : Readable s a) (ht : Readable s target) (hj : taken (operandValue s a) = false) :
    jumpWhen taken a target s = .next (s.retire (s.ip + 3) .continuing) := by
  simp [jumpWhen, resolveRead_readable ha, resolveRead_readable ht, hj]

/-- Why a jump fails, in parameter order and then at its target (60_exceptions.md R125, R131). -/
inductive JumpFailure (taken : Int → Bool) (a target : Param) (s : State) (k : Failure) : Prop where
  | first (h : resolveRead s a = .error k)
  | second (ha : Readable s a) (h : resolveRead s target = .error k)
  | negative (ha : Readable s a) (ht : Readable s target) (hj : taken (operandValue s a) = true)
      (hn : operandValue s target < 0) (h : k = .invalidAddress (operandValue s target))

theorem jumpWhen_fails {k : Failure} (h : JumpFailure taken a target s k) :
    jumpWhen taken a target s = .next (s.fail k) := by
  cases h with
  | first h => simp [jumpWhen, h]
  | second ha h => simp [jumpWhen, resolveRead_readable ha, h]
  | negative ha ht hj hn h =>
    simp [jumpWhen, resolveRead_readable ha, resolveRead_readable ht, hj, jumpTarget_negative hn, h]

theorem jumpWhen_cases (h : jumpWhen taken a target s = .next t) :
    (∃ k, JumpFailure taken a target s k ∧ t = s.fail k) ∨
      (Readable s a ∧ Readable s target ∧ taken (operandValue s a) = true ∧ 0 ≤ operandValue s target ∧
        t = s.retire (operandValue s target).toNat .continuing) ∨
      (Readable s a ∧ Readable s target ∧ taken (operandValue s a) = false ∧ t = s.retire (s.ip + 3) .continuing) := by
  rcases resolveRead_cases s a with ⟨ha, _⟩ | ⟨k, hk⟩
  · rcases resolveRead_cases s target with ⟨ht, _⟩ | ⟨k, hk⟩
    · cases hj : taken (operandValue s a)
      · exact .inr (.inr ⟨ha, ht, rfl, next_inj (h.symm.trans (jumpWhen_notTaken ha ht hj))⟩)
      · by_cases hn : operandValue s target < 0
        · have hf : JumpFailure taken a target s _ := .negative ha ht hj hn rfl
          exact .inl ⟨_, hf, next_inj (h.symm.trans (jumpWhen_fails hf))⟩
        · have hn' : 0 ≤ operandValue s target := by omega
          exact .inr (.inl ⟨ha, ht, rfl, hn', next_inj (h.symm.trans (jumpWhen_taken ha ht hj hn'))⟩)
    · have hf : JumpFailure taken a target s k := .second ha hk
      exact .inl ⟨k, hf, next_inj (h.symm.trans (jumpWhen_fails hf))⟩
  · have hf : JumpFailure taken a target s k := .first hk
    exact .inl ⟨k, hf, next_inj (h.symm.trans (jumpWhen_fails hf))⟩

end Jump

/-! ### ARB and HLT -/

theorem execArb_completes {s : State} {a : Param} {r : Int} (ha : Readable s a)
    (hr : arith s.cfg (s.rb + operandValue s a) = .ok r) :
    execArb a s = .next ((s.setRb r).retire (s.ip + 2) .continuing) := by
  simp [execArb, resolveRead_readable ha, hr]

theorem execArb_fails_read {s : State} {a : Param} {k : Failure} (h : resolveRead s a = .error k) :
    execArb a s = .next (s.fail k) := by
  simp [execArb, h]

theorem execArb_fails_result {s : State} {a : Param} {k : Failure} (ha : Readable s a)
    (h : arith s.cfg (s.rb + operandValue s a) = .error k) : execArb a s = .next (s.fail k) := by
  simp [execArb, resolveRead_readable ha, h]

theorem execArb_cases {s t : State} {a : Param} (h : execArb a s = .next t) :
    (∃ k, (resolveRead s a = .error k ∨ (Readable s a ∧ arith s.cfg (s.rb + operandValue s a) = .error k)) ∧
        t = s.fail k) ∨
      ∃ r, Readable s a ∧ arith s.cfg (s.rb + operandValue s a) = .ok r ∧
        t = (s.setRb r).retire (s.ip + 2) .continuing := by
  rcases resolveRead_cases s a with ⟨ha, _⟩ | ⟨k, hk⟩
  · cases hr : arith s.cfg (s.rb + operandValue s a) with
    | error k => exact .inl ⟨k, .inr ⟨ha, rfl⟩, next_inj (h.symm.trans (execArb_fails_result ha hr))⟩
    | ok r => exact .inr ⟨r, ha, rfl, next_inj (h.symm.trans (execArb_completes ha hr))⟩
  · exact .inl ⟨k, .inl hk, next_inj (h.symm.trans (execArb_fails_read hk))⟩

theorem execHlt_eq (s : State) : execHlt s = .next (s.retire (s.ip + 1) .halted) := rfl

end Sys2Proof.Machine
end

