-- ==== Sys2Proof/Laws/PerInstr.lean ====
section
/-!
SUPPORT. Facts about every instruction as syntax, one lemma per constructor.
-/
namespace Sys2Proof.Laws.EncodingShape

/-- The encoded instruction word carries the opcode in its low two digits and has no digit above the last mode digit, and
the encoding has the instruction's width (30_encoding.md R66, R67, R84). -/
def Statement (i : Instr) : Prop :=
  encodeHead i % 100 = i.opcode.code ∧ encodeHead i < 10 ^ (i.opcode.nparams + 2) ∧ (encode i).length = i.width

theorem of_tables (i : Instr) : Statement i := ⟨encodeHead_mod i, encodeHead_lt i, encode_length i⟩

theorem add (a b dest : Param) : Statement (.add a b dest) := of_tables _
theorem mul (a b dest : Param) : Statement (.mul a b dest) := of_tables _
theorem inp (dest : Param) : Statement (.inp dest) := of_tables _
theorem out (a : Param) : Statement (.out a) := of_tables _
theorem jt (a target : Param) : Statement (.jt a target) := of_tables _
theorem jf (a target : Param) : Statement (.jf a target) := of_tables _
theorem lt (a b dest : Param) : Statement (.lt a b dest) := of_tables _
theorem eq (a b dest : Param) : Statement (.eq a b dest) := of_tables _
theorem arb (a : Param) : Statement (.arb a) := of_tables _
theorem hlt : Statement .hlt := of_tables _

end Sys2Proof.Laws.EncodingShape
end

