-- ==== Sys2Proof/Laws/Step.lean ====
section
/-!
SUPPORT. What fetching answers, and the three cases of a step.
-/
namespace Sys2Proof.Machine

/-! ### Fetching -/

theorem fetchWord_ok_iff (s : State) (a : Nat) (v : Int) :
    fetchWord s a = .ok v ↔ a ≤ s.cfg.addrMax ∧ v = s.readWord a := by
  unfold fetchWord
  split
  · simp; omega
  · simp [eq_comm]; omega

theorem fetchWord_above {s : State} {a : Nat} (h : s.cfg.addrMax < a) :
    fetchWord s a = .error (.addressOutOfRange a) := by
  simp [fetchWord, h]

/-- The raw values are the words in memory, where memory has them all (40_execution_cycle.md R91). -/
theorem fetchRaws_ok_iff (s : State) (a n : Nat) (raws : List Int) :
    fetchRaws s a n = .ok raws ↔
      (∀ j, j < n → a + j ≤ s.cfg.addrMax) ∧ raws = (List.range n).map fun j => s.readWord (a + j) := by
  induction n generalizing a raws with
  | zero => simp [fetchRaws, eq_comm]
  | succ n ih =>
    unfold fetchRaws
    cases hw : fetchWord s a with
    | error k =>
      simp only [reduceCtorEq, false_iff, not_and]
      intro hall
      have := (fetchWord_ok_iff s a (s.readWord a)).mpr ⟨by simpa using hall 0 (by omega), rfl⟩
      rw [hw] at this
      cases this
    | ok raw =>
      obtain ⟨ha, rfl⟩ := (fetchWord_ok_iff s a raw).mp hw
      have hmap : ((List.range (n + 1)).map fun j => s.readWord (a + j)) =
          s.readWord a :: (List.range n).map fun j => s.readWord (a + 1 + j) := by
        simp [List.range_succ_eq_map, List.map_map, Function.comp_def, Nat.add_assoc, Nat.add_comm 1]
      cases hr : fetchRaws s (a + 1) n with
      | error k =>
        simp only [reduceCtorEq, false_iff, not_and]
        intro hall
        have := (ih (a + 1) _).mpr ⟨fun j hj => by have := hall (j + 1) (by omega); omega, rfl⟩
        rw [hr] at this
        cases this
      | ok raws₀ =>
        obtain ⟨hall, rfl⟩ := (ih (a + 1) raws₀).mp hr
        simp only [Except.ok.injEq, hmap]
        constructor
        · rintro rfl
          refine ⟨fun j hj => ?_, rfl⟩
          cases j with
          | zero => simpa using ha
          | succ j => have := hall j (by omega); omega
        · exact fun h => h.2.symm

/-- A raw fetch fails at the lowest address above ADDR_MAX (R91). -/
theorem fetchRaws_error {s : State} {a n : Nat} {k : Failure} (h : fetchRaws s a n = .error k) :
    ∃ j, j < n ∧ s.cfg.addrMax < a + j ∧ (∀ l, l < j → a + l ≤ s.cfg.addrMax) ∧ k = .addressOutOfRange (a + j) := by
  induction n generalizing a with
  | zero => cases h
  | succ n ih =>
    unfold fetchRaws at h
    by_cases ha : s.cfg.addrMax < a
    · rw [fetchWord_above ha] at h
      exact ⟨0, by omega, by omega, fun l hl => absurd hl (by omega), (Except.error.inj h).symm⟩
    · have hw := (fetchWord_ok_iff s a (s.readWord a)).mpr ⟨by omega, rfl⟩
      rw [hw] at h
      cases hr : fetchRaws s (a + 1) n with
      | ok raws => simp only [hr] at h; cases h
      | error k' =>
        simp only [hr] at h
        obtain rfl := Except.error.inj h
        obtain ⟨j, hj, hbad, hgood, hk⟩ := ih hr
        have hj' : a + 1 + j = a + (j + 1) := by omega
        rw [hj'] at hbad hk
        refine ⟨j + 1, by omega, hbad, fun l hl => ?_, hk⟩
        cases l with
        | zero => omega
        | succ l => have := hgood l (by omega); omega

/-- What a fetched instruction is: the decoded head applied to the raw words that follow, all of them in memory. -/
theorem fetchInstr_ok_iff (s : State) (i : Instr) :
    fetchInstr s = .ok i ↔
      ∃ h, decodeHead s.cfg.strict (s.readWord s.ip) = .ok h ∧
        (∀ j, j ≤ h.nparams → s.ip + j ≤ s.cfg.addrMax) ∧
        i = h.instr ((List.range h.nparams).map fun j => s.readWord (s.ip + 1 + j)) := by
  unfold fetchInstr
  by_cases hip : s.cfg.addrMax < s.ip
  · simp only [fetchWord_above hip, reduceCtorEq, false_iff, not_exists, not_and]
    intro h _ hall
    have := hall 0 (by omega)
    omega
  · simp only [(fetchWord_ok_iff s s.ip (s.readWord s.ip)).mpr ⟨by omega, rfl⟩]
    cases hd : decodeHead s.cfg.strict (s.readWord s.ip) with
    | error e => simp
    | ok h =>
      cases hr : fetchRaws s (s.ip + 1) h.nparams with
      | error k =>
        obtain ⟨j, hj, hbad, _, _⟩ := fetchRaws_error hr
        simp only [hr, reduceCtorEq, Except.ok.injEq, false_iff, not_exists, not_and]
        rintro _ rfl hall
        have := hall (j + 1) (by omega)
        omega
      | ok raws =>
        obtain ⟨hall, rfl⟩ := (fetchRaws_ok_iff s _ _ raws).mp hr
        simp only [hr, Except.ok.injEq]
        constructor
        · rintro rfl
          refine ⟨h, rfl, fun j hj => ?_, rfl⟩
          cases j with
          | zero => omega
          | succ j => have := hall j (by omega); omega
        · rintro ⟨h', rfl, _, rfl⟩
          rfl

/-- A fetched instruction lies in memory whole. -/
theorem fetchInstr_width {s : State} {i : Instr} (h : fetchInstr s = .ok i) : s.ip + i.width ≤ s.cfg.addrMax + 1 := by
  obtain ⟨hd, _, hall, rfl⟩ := (fetchInstr_ok_iff s i).mp h
  have := hall hd.nparams (le_refl _)
  rw [Instr.width_eq, Head.instr_opcode]
  unfold Head.nparams at this
  omega

/-- The raw value of a fetched parameter is a word read from memory. -/
theorem fetchInstr_raw {s : State} {i : Instr} (h : fetchInstr s = .ok i) {p : Param} (hp : p ∈ i.params) :
    ∃ a, p.raw = s.readWord a := by
  obtain ⟨hd, _, _, rfl⟩ := (fetchInstr_ok_iff s i).mp h
  rw [Head.instr_params, List.mem_map] at hp
  obtain ⟨j, hj, rfl⟩ := hp
  have hj' : j < hd.nparams := List.mem_range.mp hj
  exact ⟨s.ip + 1 + j, by simp [hj']⟩

/-! ### The cases of an instruction -/

/-- Every next state an instruction can answer. -/
inductive ExecCase : Instr → State → State → Prop where
  /-- A failure of phase 6 or 7. -/
  | failed {i s} (k : Failure) : ExecCase i s (s.fail k)
  /-- ADD, MUL, LT or EQ stores a word at its destination. -/
  | stored {i s dest} (v : Int) (hw : i.width = 4) (hp : destParam i = some dest) (hd : Writable s dest) :
      ExecCase i s ((s.writeWord (destination s dest) v).retire (s.ip + 4) .continuing)
  /-- IN finds the queue empty. -/
  | starved {s dest} (hd : Writable s dest) (hq : s.inq = []) : ExecCase (.inp dest) s s.suspend
  /-- IN stores the front of the queue. -/
  | took {s dest x xs} (hd : Writable s dest) (hq : s.inq = x :: xs) :
      ExecCase (.inp dest) s ((s.popInput.writeWord (destination s dest) x).retire (s.ip + 2) .continuing)
  | output {s a} (ha : Readable s a) :
      ExecCase (.out a) s ((s.appendLog (operandValue s a)).retire (s.ip + 2) (.producedOutput (operandValue s a)))
  /-- A taken jump: JT on a non-zero operand, JF on 0. -/
  | jumped {i s a target} (ht : Readable s target) (hn : 0 ≤ operandValue s target)
      (hi : (i = .jt a target ∧ operandValue s a ≠ 0) ∨ (i = .jf a target ∧ operandValue s a = 0)) :
      ExecCase i s (s.retire (operandValue s target).toNat .continuing)
  /-- A jump that is not taken: JT on 0, JF on a non-zero operand. -/
  | fellThrough {i s a target}
      (hi : (i = .jt a target ∧ operandValue s a = 0) ∨ (i = .jf a target ∧ operandValue s a ≠ 0)) :
      ExecCase i s (s.retire (s.ip + 3) .continuing)
  | based {s a r} (ha : Readable s a) (hr : arith s.cfg (s.rb + operandValue s a) = .ok r) :
      ExecCase (.arb a) s ((s.setRb r).retire (s.ip + 2) .continuing)
  | halted {s} : ExecCase .hlt s (s.retire (s.ip + 1) .halted)

theorem storeResult_execCase {f : Int → Int → Except Failure Int} {a b dest : Param} {i : Instr} {s t : State}
    (hw : i.width = 4) (hp : destParam i = some dest) (h : storeResult f a b dest s = .next t) : ExecCase i s t := by
  rcases storeResult_cases h with ⟨k, _, rfl⟩ | ⟨r, _, _, hd, _, rfl⟩
  · exact .failed k
  · exact .stored r hw hp hd

/-- An instruction answers one of the states of `ExecCase`. -/
theorem exec_cases {i : Instr} {s t : State} (h : exec i s = .next t) : ExecCase i s t := by
  cases i with
  | add a b dest => exact storeResult_execCase rfl rfl h
  | mul a b dest => exact storeResult_execCase rfl rfl h
  | lt a b dest => exact storeResult_execCase rfl rfl h
  | eq a b dest => exact storeResult_execCase rfl rfl h
  | inp dest =>
    rcases execInp_cases h with ⟨k, _, rfl⟩ | ⟨hd, hq, rfl⟩ | ⟨x, xs, hd, hq, rfl⟩
    · exact .failed k
    · exact .starved hd hq
    · exact .took hd hq
  | out a =>
    rcases execOut_cases h with ⟨k, _, rfl⟩ | ⟨ha, rfl⟩
    · exact .failed k
    · exact .output ha
  | jt a target =>
    rcases jumpWhen_cases h with ⟨k, _, rfl⟩ | ⟨_, ht, hj, hn, rfl⟩ | ⟨_, _, hj, rfl⟩
    · exact .failed k
    · exact .jumped ht hn (.inl ⟨rfl, of_decide_eq_true hj⟩)
    · exact .fellThrough (.inl ⟨rfl, by simpa using hj⟩)
  | jf a target =>
    rcases jumpWhen_cases h with ⟨k, _, rfl⟩ | ⟨_, ht, hj, hn, rfl⟩ | ⟨_, _, hj, rfl⟩
    · exact .failed k
    · exact .jumped ht hn (.inr ⟨rfl, of_decide_eq_true hj⟩)
    · exact .fellThrough (.inr ⟨rfl, by simpa using hj⟩)
  | arb a =>
    rcases execArb_cases h with ⟨k, _, rfl⟩ | ⟨r, ha, hr, rfl⟩
    · exact .failed k
    · exact .based ha hr
  | hlt =>
    obtain rfl := next_inj h
    exact .halted

/-! ### The cases of a step -/

theorem step_terminal {s : State} (h : s.es.terminal = true) : step s = .next s := by simp [step, h]

theorem step_fetch_fails {s : State} {k : Failure} (h : s.es.terminal = false) (hf : fetchInstr s = .error k) :
    step s = .next (s.fail k) := by
  simp [step, h, hf]

theorem step_runs {s : State} {i : Instr} (h : s.es.terminal = false) (hf : fetchInstr s = .ok i) :
    step s = exec i s := by
  simp [step, h, hf]

/-- A step is the null step of a terminal state, a failure of phases 1 to 5, or the meaning of the fetched instruction. -/
theorem step_cases {s t : State} (h : step s = .next t) :
    (s.es.terminal = true ∧ t = s) ∨
      (s.es.terminal = false ∧ ∃ k, fetchInstr s = .error k ∧ t = s.fail k) ∨
      (s.es.terminal = false ∧ ∃ i, fetchInstr s = .ok i ∧ exec i s = .next t) := by
  cases ht : s.es.terminal with
  | true => exact .inl ⟨rfl, next_inj (h.symm.trans (step_terminal ht))⟩
  | false =>
    cases hf : fetchInstr s with
    | error k => exact .inr (.inl ⟨rfl, k, rfl, next_inj (h.symm.trans (step_fetch_fails ht hf))⟩)
    | ok i => exact .inr (.inr ⟨rfl, i, rfl, (step_runs ht hf).symm.trans h⟩)

end Sys2Proof.Machine
end

