-- ==== Sys2Proof/Tests/Slice0.lean ====
section
/-!
SUPPORT. Tests. Expected results are the spec's vectors (95_test_vectors.md, rows named in the docstrings) or are read off
its encoding tables (30_encoding.md R67, R68, R84). The `witness_` theorems meet the hypotheses of the obligation they are
named after, on concrete states.
-/
namespace Sys2Proof.Machine.Tests

/-- A core just constructed from an image and inputs, at the default parameters. -/
def coreOf (image inputs : List Int) : State :=
  { State.reset with mem := Memory.ofImage 0 image, ext := image.length, inq := inputs }

/-- The same under OVF = WRAP. -/
def wrapCore (image : List Int) : State :=
  { coreOf image [] with cfg := { Config.default with ovf := .wrap } }

/-- The same with a small memory and an instruction pointer. -/
def smallCore (addrMax ip : Nat) (image : List Int) : State :=
  { coreOf image [] with cfg := { Config.default with addrMax := addrMax }, ip := ip }

def pos (raw : Int) : Param := ⟨.position, raw⟩
def imm (raw : Int) : Param := ⟨.immediate, raw⟩
def rel (raw : Int) : Param := ⟨.relative, raw⟩

/-! ### Well-formedness: the word range of each parameter (R69) -/

theorem test_wf_accepts_limits :
    Instr.wf Config.default (.add (imm (2 ^ 63 - 1)) (imm (-2 ^ 63)) (pos 0)) := by decide

theorem test_wf_rejects_first_raw_too_large : ¬Instr.wf Config.default (.out (imm (2 ^ 63))) := by decide

theorem test_wf_rejects_second_raw_too_small : ¬Instr.wf Config.default (.jt (imm 1) (pos (-2 ^ 63 - 1))) := by decide

theorem test_wf_rejects_third_raw_too_large : ¬Instr.wf Config.default (.lt (imm 1) (imm 1) (rel (2 ^ 63))) := by decide

/-- A narrower machine has fewer raw values. -/
theorem test_wf_depends_on_width : ¬Instr.wf { Config.default with w := 8 } (.arb (imm 128)) := by decide

/-! ### Decoding: words from the spec's encodings, one per constructor -/

/-- L1.4: 1101 has op 01, A = 1, B = 1, C = 0. -/
theorem test_decode_add : decode true [1101, 4, 5, 0, 99] = .ok (.add (imm 4) (imm 5) (pos 0), [99]) := by rfl

/-- 21002: op 02, A = 0, B = 1, C = 2. -/
theorem test_decode_mul : decode true [21002, 7, 8, 9] = .ok (.mul (pos 7) (imm 8) (rel 9), []) := by rfl

/-- P2: 203 has op 03, A = 2. -/
theorem test_decode_in : decode true [203, 5] = .ok (.inp (rel 5), []) := by rfl

/-- IO-10. -/
theorem test_decode_out : decode true [104, -7, 99] = .ok (.out (imm (-7)), [99]) := by rfl

/-- J-11: 1005 has op 05, A = 0, B = 1. -/
theorem test_decode_jt : decode true [1005, 3, 2, 99] = .ok (.jt (pos 3) (imm 2), [99]) := by rfl

/-- 206: op 06, A = 2, B = 0. -/
theorem test_decode_jf : decode true [206, 3, 2] = .ok (.jf (rel 3) (pos 2), []) := by rfl

/-- 12107: op 07, A = 1, B = 2, C = 1; immediate mode in the W role decodes (R74). -/
theorem test_decode_lt : decode true [12107, 1, 2, 3] = .ok (.lt (imm 1) (rel 2) (imm 3), []) := by rfl

/-- C-9: 1008 has op 08, A = 0, B = 1, C = 0. -/
theorem test_decode_eq : decode true [1008, 100, 0, 5] = .ok (.eq (pos 100) (imm 0) (pos 5), []) := by rfl

/-- P2. -/
theorem test_decode_arb : decode true [109, -2000] = .ok (.arb (imm (-2000)), []) := by rfl

/-- S-10. -/
theorem test_decode_hlt : decode true [99, 1, 2, 3] = .ok (.hlt, [1, 2, 3]) := by rfl

/-- D-4, D-5, D-3, D-8, D-12: the rejections. -/
theorem test_decode_rejects :
    decodeHead true (-1) = .error (.unknownOpcode (-1)) ∧ decodeHead true (-199) = .error (.unknownOpcode (-99)) ∧
      decodeHead true 98 = .error (.unknownOpcode 98) ∧ decodeHead true 30001 = .error (.invalidMode 3 3) ∧
      decodeHead true 100001 = .error (.malformedInstruction 100001) :=
  ⟨rfl, rfl, rfl, rfl, rfl⟩

/-- The host's table bits: OUT -7 in two 64-bit words, the first lowest; the second is 2^64 - 7. -/
theorem test_decodeTableWord : decodeTableWord 128 (104 + (2 ^ 64 - 7) * 2 ^ 64) = some (.out (imm (-7))) := by rfl

/-- The words that `withFetchWord` places are the ones the next step runs. -/
theorem test_withFetchWord :
    (stepped (State.reset.withFetchWord 128 (104 + (2 ^ 64 - 7) * 2 ^ 64))).es = .producedOutput (-7) := by decide

/-- P2's line at 4, and P4's line at 6. -/
theorem test_line_text :
    Line.text (.instr (.add (rel 5) (rel 5) (rel 6))) = "ADD [rb+5], [rb+5], [rb+6]" ∧
      Line.text (.instr (.jt (pos 100) (imm (-2)))) = "JT [100], -2" ∧ Line.text (.word 0) = ".word 0" ∧
      Line.text (.instr (.out (rel (-3)))) = "OUT [rb-3]" ∧ Line.text (.instr .hlt) = "HLT" := by
  decide

/-- P4: the image of the program. -/
theorem test_assemble :
    assemble [.instr (.add (imm 99) (imm 0) (pos 6)), .instr (.out (imm 5)), .word 0] = [1101, 99, 0, 6, 104, 5, 0] := by
  decide

/-- IO-15: the batch protocol. -/
theorem test_runBatch : (runBatch 9 9 (coreOf [104, 1, 104, 2, 99] [])).map Prod.snd = some [1, 2] := by decide

/-! ### One step of each instruction -/

/-- A-2: the reads precede the write. -/
theorem test_add_onto_its_operand : (stepped (coreOf [1, 0, 0, 0, 99] [])).readWord 0 = 2 := by decide

/-- A-4. -/
theorem test_add_overflow_fails :
    (stepped (coreOf [1101, 2 ^ 63 - 1, 1, 5, 99] [])).es = .failed (.arithmeticOverflow (2 ^ 63)) 0 := by decide

/-- A-10. -/
theorem test_mul_signs : (stepped (coreOf [1102, -3, 4, 0, 99] [])).readWord 0 = -12 := by decide

/-- A-14. -/
theorem test_mul_wraps : (stepped (wrapCore [1102, -2 ^ 63, -1, 0, 99])).readWord 0 = -2 ^ 63 := by decide

/-- IO-1. -/
theorem test_in_takes_front :
    (stepped (coreOf [3, 5, 99] [42])).readWord 5 = 42 ∧ (stepped (coreOf [3, 5, 99] [42])).inq = [] := by decide

/-- IO-4: the destination before the queue. -/
theorem test_in_checks_destination_first :
    (stepped (coreOf [103, 5, 99] [])).es = .failed (.invalidWriteTarget 1) 0 := by decide

/-- IO-10: ip is advanced before the suspension. -/
theorem test_out_reports :
    (stepped (coreOf [104, -7, 99] [])).es = .producedOutput (-7) ∧ (stepped (coreOf [104, -7, 99] [])).ip = 2 := by
  decide

/-- IO-13: a read does not grow memory. -/
theorem test_out_unwritten_reads_zero :
    (stepped (coreOf [4, 50, 99] [])).log = [0] ∧ (stepped (coreOf [4, 50, 99] [])).ext = 3 := by decide

/-- J-5. -/
theorem test_jt_takes_on_negative : (stepped (coreOf [1105, -2 ^ 63, 4, 0, 99] [])).ip = 4 := by decide

/-- J-3. -/
theorem test_jt_negative_target_fails :
    (stepped (coreOf [1105, 1, -1, 99] [])).es = .failed (.invalidAddress (-1)) 0 := by decide

/-- J-9. -/
theorem test_jf_reads_target_from_memory : (stepped (coreOf [6, 5, 6, 99, 0, 0, 3] [])).ip = 3 := by decide

/-- J-8. -/
theorem test_jf_not_taken : (stepped (coreOf [1106, -1, 4, 99] [])).ip = 3 := by decide

/-- C-3. -/
theorem test_lt_limits : (stepped (coreOf [1107, -2 ^ 63, 2 ^ 63 - 1, 0, 99] [])).readWord 0 = 1 := by decide

/-- C-2. -/
theorem test_lt_is_strict : (stepped (coreOf [1107, 3, 3, 0, 99] [])).readWord 0 = 0 := by decide

/-- C-9. -/
theorem test_eq_unwritten : (stepped (coreOf [1008, 100, 0, 5, 99] [])).readWord 5 = 1 := by decide

/-- C-7. -/
theorem test_eq_not_unsigned : (stepped (coreOf [1108, -1, 2 ^ 63 - 1, 5, 99] [])).readWord 5 = 0 := by decide

/-- S-2: the parameter is resolved with the old rb. -/
theorem test_arb_relative : (stepped (coreOf [209, 3, 99, 5] [])).rb = 5 := by decide

/-- S-3. -/
theorem test_arb_negative : (stepped (coreOf [109, -5, 99] [])).rb = -5 := by decide

/-- S-8. -/
theorem test_hlt_advances : (stepped (coreOf [99] [])).es = .halted ∧ (stepped (coreOf [99] [])).ip = 1 := by decide

/-- D-13. -/
theorem test_hlt_leftover_digits_fail :
    (stepped (coreOf [199] [])).es = .failed (.malformedInstruction 199) 0 := by decide

/-! ### The driver -/

/-- A driver that, when an instance waits for input, pushes it the first output of instance 1, gives it the turn again, and
gives up when an instance has failed. -/
def feedingDriver : DriverParams where
  signal0 := 0
  policy turn reports :=
    { pushes := (((reports.getD 1 ⟨0, []⟩).outputs.take 1).map fun v => (turn, v))
      next := turn
      giveUp := decide ((reports.getD turn ⟨0, []⟩).status = 4) }
  last := .lastInTime

/-- Turn 1 of P5, whose second input is missing here: the policy pushes the value, and nothing else of the core changes. -/
theorem test_policy_pushes :
    driverTurn feedingDriver 9 ⟨[coreOf [3, 5, 99] [], { coreOf [99] [] with log := [7] }], 0, none, false⟩ =
      some ⟨[{ coreOf [3, 5, 99] [7] with es := .awaitingMoreInput }, { coreOf [99] [] with log := [7] }], 0, none, false⟩ :=
  by decide

theorem test_policy_gives_up :
    (driverTurn feedingDriver 9 ⟨[coreOf [0] []], 0, none, false⟩).map Ring.finished = some true := by decide

/-! ### Witnesses: encoding -/

theorem witness_StrictDecodingHasOneEncoding :
    decode true [104, -7, 99] = .ok (.out (imm (-7)), [99]) ∧ (Instr.out (imm (-7))).width ≤ [104, -7, 99].length :=
  ⟨rfl, by decide⟩

theorem witness_InstructionPatterns : 0 = (pos 4).mode.digit ∧ 1 = (imm 5).mode.digit ∧ 2 = (rel 6).mode.digit := by
  decide

theorem witness_PermissiveIgnoresLeftoverDigits : 10105 % 100 = Opcode.jt.code ∧ 199 % 100 = Opcode.hlt.code := by decide

/-! ### Witnesses: the step -/

theorem witness_TerminalStepChangesNothing :
    (stepped (coreOf [99] [])).es = .halted ∧ (stepped (coreOf [0] [])).es = .failed (.unknownOpcode 0) 0 := by decide

theorem witness_OldExecutionStateHasNoEffect :
    (coreOf [99] []).es.terminal = false ∧ (ExecState.producedOutput 7).terminal = false ∧
      ExecState.awaitingMoreInput.terminal = false := by decide

/-- M-2, before its second step. -/
theorem witness_FetchAboveAddrMaxFails :
    (smallCore 3 4 []).es.terminal = false ∧ (smallCore 3 4 []).cfg.addrMax < (smallCore 3 4 []).ip := by decide

theorem witness_OpcodePhase_negative :
    (coreOf [-1] []).es.terminal = false ∧ (coreOf [-1] []).ip ≤ (coreOf [-1] []).cfg.addrMax ∧
      (coreOf [-1] []).readWord 0 < 0 := by decide

/-- A negative multiple of 100: its code is 0 (log 5). -/
theorem witness_OpcodePhase_negative_multiple :
    (coreOf [-100] []).es.terminal = false ∧ (coreOf [-100] []).ip ≤ (coreOf [-100] []).cfg.addrMax ∧
      (coreOf [-100] []).readWord 0 < 0 ∧
      (stepped (coreOf [-100] [])).es = .failed (.unknownOpcode 0) 0 := by decide

theorem witness_OpcodePhase_unrecognised :
    0 ≤ (coreOf [0] []).readWord 0 ∧ (coreOf [0] []).readWord 0 % 100 ∉ [1, 2, 3, 4, 5, 6, 7, 8, 9, 99] ∧
      0 ≤ (coreOf [98] []).readWord 0 ∧ (coreOf [98] []).readWord 0 % 100 ∉ [1, 2, 3, 4, 5, 6, 7, 8, 9, 99] := by decide

theorem witness_OpcodePhase_recognised :
    fetchInstr (coreOf [1] []) = .ok (.add (pos 0) (pos 0) (pos 0)) ∧
      fetchInstr (coreOf [209, 3] []) = .ok (.arb (rel 3)) ∧
      fetchInstr (coreOf [1105, 7, 4] []) = .ok (.jt (imm 7) (imm 4)) ∧ fetchInstr (coreOf [99] []) = .ok .hlt :=
  ⟨rfl, rfl, rfl, rfl⟩

/-- D-6 (first parameter) and D-8 (last parameter). -/
theorem witness_FirstIllegalModeDigitFails :
    (coreOf [301] []).es.terminal = false ∧ (coreOf [301] []).readWord 0 = (301 : Nat) ∧ 301 % 100 = Opcode.add.code ∧
      2 < digit 301 2 ∧
      (coreOf [30001] []).readWord 0 = (30001 : Nat) ∧ 30001 % 100 = Opcode.add.code ∧ 2 < Opcode.add.nparams ∧
      2 < digit 30001 4 ∧ ∀ l, l < 2 → digit 30001 (l + 2) ≤ 2 := by decide

/-- D-9 and D-13. -/
theorem witness_LeftoverDigitsFailUnderStrict :
    (coreOf [10105] []).es.terminal = false ∧ (coreOf [10105] []).cfg.strict = true ∧
      (coreOf [10105] []).readWord 0 = (10105 : Nat) ∧ 10105 % 100 = Opcode.jt.code ∧
      (∀ j, j < Opcode.jt.nparams → digit 10105 (j + 2) ≤ 2) ∧ 10105 / 10 ^ (Opcode.jt.nparams + 2) ≠ 0 ∧
      (coreOf [199] []).readWord 0 = (199 : Nat) ∧ 199 % 100 = Opcode.hlt.code ∧
      199 / 10 ^ (Opcode.hlt.nparams + 2) ≠ 0 := by decide

/-- M-4 before its second step: the first raw value is out of range. And a last raw value out of range. -/
theorem witness_RawFetchAboveAddrMaxFails :
    (smallCore 4 4 [0, 0, 0, 0, 2]).es.terminal = false ∧
      decodeHead true ((smallCore 4 4 [0, 0, 0, 0, 2]).readWord 4) = .ok ⟨.mul, [.position, .position, .position]⟩ ∧
      decodeHead true ((smallCore 4 2 [0, 0, 1105]).readWord 2) = .ok ⟨.jt, [.immediate, .immediate]⟩ ∧
      (4 + 0 : Nat) = (smallCore 4 4 []).cfg.addrMax ∧ (smallCore 4 3 []).ip + 1 = (smallCore 4 3 []).cfg.addrMax :=
  ⟨rfl, rfl, rfl, rfl, rfl⟩

/-- HLT in the last cell (M-7), and IN in the last two. -/
theorem witness_StepRunsDecodedInstruction :
    (smallCore 4 4 [0, 0, 0, 0, 99]).es.terminal = false ∧ decode true [99, 0, 0, 0] = .ok (.hlt, [0, 0, 0]) ∧
      (smallCore 4 4 [0, 0, 0, 0, 99]).readWord 4 = 99 ∧ 4 + Instr.hlt.width ≤ 4 + 1 ∧
      decode true [3, 5, 0, 0] = .ok (.inp (pos 5), [0, 0]) ∧ 3 + (Instr.inp (pos 5)).width ≤ 4 + 1 :=
  ⟨rfl, rfl, rfl, by decide, rfl, by decide⟩

theorem witness_EncodedInstructionRuns :
    (coreOf [203, 5] []).es.terminal = false ∧ encode (.inp (rel 5)) = [203, 5] ∧
      (coreOf [203, 5] []).readWord (0 + 0) = 203 ∧ (coreOf [203, 5] []).readWord (0 + 1) = 5 ∧
      (coreOf [203, 5] []).ip + (Instr.inp (rel 5)).width ≤ (coreOf [203, 5] []).cfg.addrMax + 1 := by decide

/-! ### Witnesses: operands, at the ends of memory -/

theorem witness_modes_in_range :
    AddressOk (smallCore 9 0 []).cfg (pos 0).raw ∧ AddressOk (smallCore 9 0 []).cfg (pos 9).raw ∧
      AddressOk (smallCore 9 0 []).cfg ((smallCore 9 0 []).rb + (rel 9).raw) ∧
      (pos 0).mode = .position ∧ (imm 0).mode = .immediate ∧ (rel 9).mode = .relative := by decide

theorem witness_modes_out_of_range :
    (pos (-1)).raw < 0 ∧ ((smallCore 9 0 []).cfg.addrMax : Int) < (pos 10).raw ∧
      (smallCore 9 0 []).rb + (rel (-1)).raw < 0 ∧
      ((smallCore 9 0 []).cfg.addrMax : Int) < (smallCore 9 0 []).rb + (rel 10).raw := by decide

/-- The cases above are what ReadPathOfModes and WritePathOfModes ask about. -/
theorem witness_ReadPathOfModes : Readable (smallCore 9 0 []) (pos 0) ∧ Readable (smallCore 9 0 []) (rel 9) :=
  ⟨⟨by decide, by decide⟩, ⟨by decide, by decide⟩⟩

theorem witness_WritePathOfModes : Writable (smallCore 9 0 []) (pos 9) ∧ Writable (smallCore 9 0 []) (rel 0) :=
  ⟨⟨by decide, by decide⟩, ⟨by decide, by decide⟩⟩

/-- Each clause: the first, the second and the third parameter fails, and IN's destination. -/
theorem witness_FirstFailingParameterIsReported :
    resolveRead State.reset (pos (-1)) = .error (.invalidAddress (-1)) ∧
      (Readable State.reset (imm 0) ∧ resolveRead State.reset (rel (-2)) = .error (.arithmeticConversion (-2))) ∧
      resolveWriteAddress State.reset 3 (imm 5) = .error (.invalidWriteTarget 3) ∧
      resolveWriteAddress State.reset 1 (imm 5) = .error (.invalidWriteTarget 1) :=
  ⟨rfl, ⟨trivial, rfl⟩, rfl, rfl⟩

/-! ### Witnesses: results -/

/-- The hypotheses of the storing instructions, in each mode. -/
theorem witness_storing_operands :
    Readable State.reset (imm 3) ∧ Readable State.reset (pos 0) ∧ Readable State.reset (rel 7) ∧
      Writable State.reset (pos 0) ∧ Writable State.reset (rel 0) :=
  ⟨trivial, ⟨by decide, by decide⟩, ⟨by decide, by decide⟩, ⟨by decide, by decide⟩, ⟨by decide, by decide⟩⟩

/-- A sum at the end of the range, and one past it under each policy. -/
theorem witness_AddWritesSum :
    InW State.reset.cfg.w (operandValue State.reset (imm (2 ^ 63 - 2)) + operandValue State.reset (imm 1)) ∧
      ¬InW State.reset.cfg.w (operandValue State.reset (imm (2 ^ 63 - 1)) + operandValue State.reset (imm 1)) ∧
      State.reset.cfg.ovf = .fault ∧
      ¬InW (wrapCore []).cfg.w (operandValue (wrapCore []) (imm (-2 ^ 63)) + operandValue (wrapCore []) (imm (-1))) ∧
      (wrapCore []).cfg.ovf = .wrap := by decide

/-- A product at the end of the range, and one past it under each policy. -/
theorem witness_MulWritesProduct :
    InW State.reset.cfg.w (operandValue State.reset (imm (-2 ^ 62)) * operandValue State.reset (imm 2)) ∧
      ¬InW State.reset.cfg.w (operandValue State.reset (imm (-2 ^ 63)) * operandValue State.reset (imm (-1))) ∧
      State.reset.cfg.ovf = .fault ∧
      ¬InW (wrapCore []).cfg.w (operandValue (wrapCore []) (imm (2 ^ 62)) * operandValue (wrapCore []) (imm 2)) ∧
      (wrapCore []).cfg.ovf = .wrap := by decide

theorem witness_LtWritesComparison :
    Readable (coreOf [] []) (imm (-2)) ∧ Readable (coreOf [] []) (pos 3) ∧ Writable (coreOf [] []) (rel 0) :=
  ⟨trivial, ⟨by decide, by decide⟩, ⟨by decide, by decide⟩⟩

theorem witness_EqWritesComparison :
    Readable (coreOf [] []) (pos 100) ∧ Readable (coreOf [] []) (imm 0) ∧ Writable (coreOf [] []) (pos 5) :=
  ⟨⟨by decide, by decide⟩, trivial, ⟨by decide, by decide⟩⟩

theorem witness_InTakesOldestInput : Writable (coreOf [] [42, 7]) (pos 5) ∧ (coreOf [] [42, 7]).inq = 42 :: [7] :=
  ⟨⟨by decide, by decide⟩, rfl⟩

theorem witness_InSuspendsOnEmptyQueue : Writable (coreOf [] []) (pos 5) ∧ (coreOf [] []).inq = [] :=
  ⟨⟨by decide, by decide⟩, rfl⟩

theorem witness_OutLogsAndReports : Readable State.reset (imm (-7)) ∧ Readable State.reset (pos (2 ^ 63 - 1)) :=
  ⟨trivial, ⟨by decide, by decide⟩⟩

/-- Taken, taken to a negative target, and not taken. -/
theorem witness_JtJumpsWhenNonzero :
    (Readable State.reset (imm 1) ∧ operandValue State.reset (imm 1) ≠ 0 ∧ 0 ≤ operandValue State.reset (imm 0)) ∧
      operandValue State.reset (imm (-1)) < 0 ∧ operandValue State.reset (pos 8) = 0 :=
  ⟨⟨trivial, by decide, by decide⟩, by decide, by decide⟩

/-- Taken, taken to a negative target, and not taken. -/
theorem witness_JfJumpsWhenZero :
    (Readable State.reset (imm 0) ∧ operandValue State.reset (imm 0) = 0 ∧ 0 ≤ operandValue State.reset (pos 0)) ∧
      operandValue State.reset (imm (-5)) < 0 ∧ operandValue State.reset (imm (-1)) ≠ 0 :=
  ⟨⟨trivial, by decide, by decide⟩, by decide, by decide⟩

/-- S-3, and S-6 and S-7 before their second step. -/
theorem witness_ArbAdjustsRelativeBase :
    Readable State.reset (imm (-5)) ∧ InW State.reset.cfg.w (State.reset.rb + operandValue State.reset (imm (-5))) ∧
      (¬InW 64 ({ State.reset with rb := 2 ^ 63 - 1 }.rb + operandValue State.reset (imm 1)) ∧
        State.reset.cfg.ovf = .fault) ∧
      (¬InW 64 ({ wrapCore [] with rb := 2 ^ 63 - 1 }.rb + operandValue State.reset (imm 1)) ∧
        (wrapCore []).cfg.ovf = .wrap) :=
  ⟨trivial, by decide, by decide, by decide⟩

/-- The least width, and a word at its lower end. -/
theorem witness_WrapIsTheCongruentWord :
    Config.wf { Config.default with w := 2 } ∧ InW 2 (-2) ∧ ((2 ^ 2 : Nat) : Int) ∣ -2 - 6 := by decide

/-! ### Witnesses: failure, suspension, frames -/

theorem witness_FailureChangesOnlyExecutionState :
    step (coreOf [98] []) = .next { coreOf [98] [] with es := .failed (.unknownOpcode 98) 0 } ∧
      (coreOf [98] []).es.terminal = false :=
  ⟨rfl, rfl⟩

/-- A step that outputs, one that starves, one that halts, and a run. -/
theorem witness_SuspensionPointsAreExact :
    step (coreOf [104, 5] []) = .next { coreOf [104, 5] [] with ip := 2, log := [5], es := .producedOutput 5 } ∧
      step (coreOf [3, 5] []) = .next { coreOf [3, 5] [] with es := .awaitingMoreInput } ∧
      step (coreOf [99] []) = .next { coreOf [99] [] with ip := 1, es := .halted } ∧
      RunsTo (coreOf [99] []) { coreOf [99] [] with ip := 1, es := .halted } :=
  ⟨rfl, rfl, rfl, .inr ⟨rfl, .stop rfl (by decide)⟩⟩

theorem witness_StarvedInputRetries :
    step (coreOf [3, 5] []) = .next { coreOf [3, 5] [] with es := .awaitingMoreInput } ∧
      pushInput 42 { coreOf [3, 5] [] with es := .awaitingMoreInput } =
        some { coreOf [3, 5] [42] with es := .awaitingMoreInput } :=
  ⟨rfl, by decide⟩

/-- The destination resolves, and it does not. -/
theorem witness_StoringInstructionsFrame :
    exec (.eq (imm 0) (imm 0) (pos 5)) State.reset =
        .next { State.reset with mem := [(5, 1)], ext := 6, ip := 4 } ∧
      resolveWriteAddress State.reset 3 (pos 5) = .ok 5 ∧
      exec (.add (imm 0) (imm 0) (pos (-1))) State.reset =
        .next { State.reset with es := .failed (.invalidAddress (-1)) 0 } ∧
      resolveWriteAddress State.reset 3 (pos (-1)) = .error (.invalidAddress (-1)) :=
  ⟨rfl, rfl, rfl, rfl⟩

theorem witness_InputInstructionFrame :
    exec (.inp (pos 5)) (coreOf [] [42]) = .next { coreOf [] [] with mem := [(5, 42)], ext := 6, ip := 2 } ∧
      resolveWriteAddress (coreOf [] [42]) 1 (pos 5) = .ok 5 ∧
      exec (.inp (imm 5)) (coreOf [] [42]) = .next { coreOf [] [42] with es := .failed (.invalidWriteTarget 1) 0 } ∧
      resolveWriteAddress (coreOf [] [42]) 1 (imm 5) = .error (.invalidWriteTarget 1) :=
  ⟨rfl, rfl, rfl, rfl⟩

theorem witness_NonStoringInstructionsFrame :
    exec (.arb (imm 3)) State.reset = .next { State.reset with rb := 3, ip := 2 } ∧
      exec (.jf (imm 0) (imm 9)) State.reset = .next { State.reset with ip := 9 } :=
  ⟨rfl, rfl⟩

/-! ### Witnesses: rules of the whole machine -/

theorem witness_OnlyArbWritesRelativeBase :
    step (coreOf [109, 19] []) = .next { coreOf [109, 19] [] with rb := 19, ip := 2 } ∧ (19 : Int) ≠ State.reset.rb :=
  ⟨rfl, by decide⟩

theorem witness_OnlyFiveInstructionsWriteMemory :
    step (coreOf [1108, 8, 8, 5] []) = .next (stepped (coreOf [1108, 8, 8, 5] [])) ∧
      (stepped (coreOf [1108, 8, 8, 5] [])).readWord 5 ≠ (coreOf [1108, 8, 8, 5] []).readWord 5 :=
  ⟨rfl, by decide⟩

theorem witness_OnlyInTakesFromQueue :
    step (coreOf [3, 5] [42]) = .next (stepped (coreOf [3, 5] [42])) ∧
      (stepped (coreOf [3, 5] [42])).inq ≠ (coreOf [3, 5] [42]).inq :=
  ⟨rfl, by decide⟩

theorem witness_OnlyOutWritesLog :
    step (coreOf [104, 5] []) = .next (stepped (coreOf [104, 5] [])) ∧
      (stepped (coreOf [104, 5] [])).log ≠ (coreOf [104, 5] []).log :=
  ⟨rfl, by decide⟩

theorem witness_StepKeepsParameters : step (wrapCore [99]) = .next (stepped (wrapCore [99])) := rfl

theorem witness_ExtentGrowsToWrittenAddress :
    step (coreOf [1108, 8, 8, 5] []) = .next (stepped (coreOf [1108, 8, 8, 5] [])) ∧
      (stepped (coreOf [1108, 8, 8, 5] [])).ext ≠ (coreOf [1108, 8, 8, 5] []).ext :=
  ⟨rfl, by decide⟩

/-- A step that advances, and a taken jump. -/
theorem witness_NextIpIsWidthOrTarget :
    step (coreOf [109, 19] []) = .next { coreOf [109, 19] [] with rb := 19, ip := 2 } ∧
      step (coreOf [1106, 0, 9] []) = .next { coreOf [1106, 0, 9] [] with ip := 9 } ∧
      (coreOf [109, 19] []).es.terminal = false ∧ ExecState.continuing ≠ .awaitingMoreInput ∧
      ∀ k fip, ExecState.continuing ≠ .failed k fip :=
  ⟨rfl, rfl, rfl, by decide, fun _ _ h => nomatch h⟩

/-! ### Witnesses: the invariant -/

/-- A state that satisfies the invariant: the core built from `[1101, 2, 3, 5, 99]`. -/
theorem witness_state_inv : (coreOf [1101, 2, 3, 5, 99] []).Inv where
  cfgWf := by decide
  memCanonical := by decide
  memBelowExt := by decide
  extInRange := by decide
  memWords := by decide
  rbWord := by decide
  inqWords := by decide
  logWords := by decide
  ipBound := by decide
  esLegal := trivial

theorem witness_StepKeepsInvariant :
    (coreOf [1101, 2, 3, 5, 99] []).Inv ∧
      step (coreOf [1101, 2, 3, 5, 99] []) = .next (stepped (coreOf [1101, 2, 3, 5, 99] [])) :=
  ⟨witness_state_inv, rfl⟩

theorem witness_TransactionsKeepInvariant :
    (coreOf [1101, 2, 3, 5, 99] []).Inv ∧
      transact (.pushInput 7) (coreOf [1101, 2, 3, 5, 99] []) = some (coreOf [1101, 2, 3, 5, 99] [7], .accepted) :=
  ⟨witness_state_inv, by decide⟩

/-- A run of two steps: ADD, then HLT. -/
theorem witness_TransactionsKeepInvariant_run :
    (coreOf [1101, 2, 3, 5, 99] []).Inv ∧
      RunsTo (coreOf [1101, 2, 3, 5, 99] []) (stepped (stepped (coreOf [1101, 2, 3, 5, 99] []))) :=
  ⟨witness_state_inv, .inr ⟨rfl, .again rfl (by decide) (.stop rfl (by decide))⟩⟩

theorem witness_ConstructedCoreSatisfiesInvariant :
    Config.default.wf ∧ construct Config.default [1101, 2, 3, 5, 99] [7] = some (coreOf [1101, 2, 3, 5, 99] [7]) := by
  decide

/-! ### Witnesses: what a step cannot see -/

theorem witness_LogIsNeverRead : step (coreOf [104, 5] []) = .next (stepped (coreOf [104, 5] [])) := rfl

theorem witness_ExtentIsNeverRead : step (coreOf [3, 9] [42]) = .next (stepped (coreOf [3, 9] [42])) := rfl

theorem witness_QueueTailIsUnseen :
    step (coreOf [3, 9] [42]) = .next (stepped (coreOf [3, 9] [42])) ∧
      (stepped (coreOf [3, 9] [42])).es ≠ .awaitingMoreInput :=
  ⟨rfl, by decide⟩

theorem witness_RelativeBaseReadOnlyByRelativeMode :
    (∀ p ∈ (Instr.add (pos 0) (imm 5) (pos 9)).params, p.mode ≠ .relative) ∧
      (∀ a, Instr.add (pos 0) (imm 5) (pos 9) ≠ .arb a) ∧
      exec (.add (pos 0) (imm 5) (pos 9)) State.reset = .next { State.reset with mem := [(9, 5)], ext := 10, ip := 4 } :=
  ⟨by decide, by simp, rfl⟩

/-! ### Witnesses: transactions, runs, the ring -/

/-- An accepted construction, and one refused for an image longer than memory. -/
theorem witness_ConstructSetsResetValues :
    construct Config.default [99] [7] = some (coreOf [99] [7]) ∧
      construct (smallCore 1 0 []).cfg [1, 2, 3] [] = none ∧ (construct (smallCore 1 0 []).cfg [1, 2] []).isSome = true := by
  decide

/-- An accepted push, one refused by a full queue, and one refused by the word range. -/
theorem witness_PushAppendsAtTail :
    pushInput 7 (coreOf [] [1]) = some (coreOf [] [1, 7]) ∧
      pushInput 7 { coreOf [] [1] with cfg := { Config.default with inqCap := some 1 } } = none ∧
      pushInput (2 ^ 63) (coreOf [] []) = none := by decide

/-- The ends of memory and the addresses beside them. -/
theorem witness_InspectionAndDrain :
    peek 0 (smallCore 3 0 [5]) = some 5 ∧ peek 3 (smallCore 3 0 [5]) = some 0 ∧ peek (-1) (smallCore 3 0 [5]) = none ∧
      peek 4 (smallCore 3 0 [5]) = none ∧ 0 < (smallCore 3 0 [5]).ext := by decide

/-- The numbers of R33 and R124 on states that steps reach: after construction, IO-2, IO-10, S-8, J-3, D-4, A-7, D-6,
S-4, D-9, A-4, M-5. -/
theorem witness_StatusWordNumbers :
    statusWord (coreOf [] []) = (0, .nothing) ∧
      statusWord (stepped (coreOf [3, 5, 99] [])) = (1, .nothing) ∧
      statusWord (stepped (coreOf [104, -7, 99] [])) = (2, .value (-7)) ∧
      statusWord (stepped (coreOf [99] [])) = (3, .nothing) ∧
      statusWord (stepped (coreOf [1105, 1, -1, 99] [])) = (4, .failure 1 0 [-1]) ∧
      statusWord (stepped (coreOf [-1] [])) = (4, .failure 2 0 [-1]) ∧
      statusWord (stepped (coreOf [11101, 1, 1, 5, 99] [])) = (4, .failure 3 0 [3]) ∧
      statusWord (stepped (coreOf [301] [])) = (4, .failure 4 0 [1, 3]) ∧
      statusWord (stepped (stepped (coreOf [109, -5, 204, 3, 99] []))) = (4, .failure 5 2 [-2]) ∧
      statusWord (stepped (coreOf [10105] [])) = (4, .failure 6 0 [10105]) ∧
      statusWord (stepped (coreOf [1101, 2 ^ 63 - 1, 1, 5, 99] [])) = (4, .failure 7 0 [2 ^ 63]) ∧
      statusWord (stepped (smallCore 8 0 [1, 0, 0, 9])) = (4, .failure 8 0 [9]) := by decide

theorem witness_RunUnderFuelIsRun :
    runFor 2 (coreOf [109, 1, 99] []) = some { coreOf [109, 1, 99] [] with rb := 1, ip := 3, es := .halted } ∧
      runFor 1 (coreOf [109, 1, 99] []) = none := by decide

theorem witness_RunPerformsAStep : (coreOf [99] []).es.terminal = false := rfl

/-- A turn whose instance waits for input, under a policy that pushes. -/
theorem witness_RingTurnMovesOneValue_policy :
    (driverTurn feedingDriver 9 ⟨[coreOf [3, 5] [], { coreOf [99] [] with log := [7] }], 0, none, false⟩).isSome = true ∧
      ([coreOf [3, 5] [], { coreOf [99] [] with log := [7] }] : List State)[0]? = some (coreOf [3, 5] []) ∧ 1 ≠ 0 ∧
      ([coreOf [3, 5] [], { coreOf [99] [] with log := [7] }] : List State)[1]? =
        some { coreOf [99] [] with log := [7] } := by decide

/-- A ring of two: core 0 outputs 5, and core 1 gets it. -/
theorem witness_RingTurnMovesOneValue :
    (⟨[coreOf [104, 5] [], coreOf [3, 5] []], 0, none, false⟩ : Ring).cores[0]? = some (coreOf [104, 5] []) ∧
      runFor 1 (coreOf [104, 5] []) = some { coreOf [104, 5] [] with ip := 2, log := [5], es := .producedOutput 5 } ∧
      (0 + 1) % 2 ≠ 0 ∧
      (⟨[coreOf [104, 5] [], coreOf [3, 5] []], 0, none, false⟩ : Ring).cores[(0 + 1) % 2]? = some (coreOf [3, 5] []) ∧
      pushInput 5 (coreOf [3, 5] []) = some (coreOf [3, 5] [5]) := by decide

end Sys2Proof.Machine.Tests
end

/-! The invariant of reachable states: every operation on the state keeps it, every phase fails with a legal record, so
every step keeps it; and construction, reset among it, establishes it (10_state.md R20 to R32, R38, R44). -/

namespace Sys2Proof.Machine

/-! ### The invariant under each operation on the state -/

theorem State.Inv.fail {s : State} (h : s.Inv) {k : Failure} (hk : k.Legal s.cfg) : (s.fail k).Inv :=
  { h with esLegal := ⟨rfl, hk⟩ }

theorem State.Inv.suspend {s : State} (h : s.Inv) : s.suspend.Inv :=
  { h with esLegal := trivial }

theorem State.Inv.retire {s : State} (h : s.Inv) {n : Nat} {e : ExecState}
    (hn : (n : Int) ≤ max (s.cfg.addrMax + 4 : Int) (wordMax s.cfg.w)) (he : e.Legal s.cfg n) :
    (s.retire n e).Inv :=
  { h with ipBound := hn, esLegal := he }

theorem State.Inv.writeWord {s : State} (h : s.Inv) {a : Nat} {v : Int} (ha : a ≤ s.cfg.addrMax)
    (hv : InW s.cfg.w v) : (s.writeWord a v).Inv :=
  { h with
    memCanonical := Memory.write_wf h.memCanonical a v
    memBelowExt := fun p hp => by
      rcases Memory.mem_write hp with rfl | ⟨hm, _⟩
      · exact lt_max_of_lt_right (Nat.lt_succ_self a)
      · exact lt_max_of_lt_left (h.memBelowExt p hm)
    extInRange := max_le h.extInRange (Nat.succ_le_succ ha)
    memWords := fun p hp => by
      rcases Memory.mem_write hp with rfl | ⟨hm, _⟩
      · exact hv
      · exact h.memWords p hm }

theorem State.Inv.setRb {s : State} (h : s.Inv) {r : Int} (hr : InW s.cfg.w r) : (s.setRb r).Inv :=
  { h with rbWord := hr }

theorem State.Inv.popInput {s : State} (h : s.Inv) : s.popInput.Inv :=
  { h with inqWords := fun v hv => h.inqWords v (List.mem_of_mem_tail hv) }

theorem State.Inv.appendLog {s : State} (h : s.Inv) {v : Int} (hv : InW s.cfg.w v) : (s.appendLog v).Inv :=
  { h with logWords := List.forall_mem_append.mpr ⟨h.logWords, List.forall_mem_singleton.mpr hv⟩ }

/-- An instruction that lies in memory whole leaves `ip` in range when it advances by at most its width (R23). -/
theorem advance_ipBound {s : State} {i : Instr} (hi : s.ip + i.width ≤ s.cfg.addrMax + 1) :
    ((s.ip + i.width : Nat) : Int) ≤ max (s.cfg.addrMax + 4 : Int) (wordMax s.cfg.w) :=
  le_max_of_le_left (by omega)

/-! ### The words an instruction meets -/

theorem State.Inv.readWord_inW {s : State} (h : s.Inv) (a : Nat) : InW s.cfg.w (s.readWord a) := by
  rcases Memory.read_mem_or_zero s.mem a with hm | h0
  · exact h.memWords _ hm
  · rw [State.readWord, h0]
    exact small_inW h.cfgWf (by decide) (by decide)

theorem State.Inv.operandValue_inW {s : State} (h : s.Inv) {p : Param} (hp : p.wf s.cfg) :
    InW s.cfg.w (operandValue s p) := by
  unfold operandValue
  cases p.mode with
  | position => exact h.readWord_inW _
  | immediate => exact hp
  | relative => exact h.readWord_inW _

/-- Every raw value of a fetched instruction is a word (30_encoding.md R69). -/
theorem State.Inv.fetchInstr_wf {s : State} (h : s.Inv) {i : Instr} (hi : fetchInstr s = .ok i) : i.wf s.cfg := by
  intro p hp
  obtain ⟨a, ha⟩ := fetchInstr_raw hi hp
  rw [Param.wf, ha]
  exact h.readWord_inW a

/-! ### The failures of each phase are legal (60_exceptions.md R125) -/

theorem digit_le_nine (w k : Nat) : digit w k ≤ 9 := by unfold digit; omega

/-- The code of a negative word lies in -99 to 0 (log 5). -/
theorem unknownOpcode_negative_legal (c : Config) {w : Int} (hw : w < 0) :
    (Failure.unknownOpcode (w.tmod 100)).Legal c := by
  have h : w.tmod 100 = -((-w) % 100) := by
    rw [← Int.tmod_eq_emod_of_nonneg (by omega), Int.neg_tmod, neg_neg]
  simp only [Failure.Legal, h]
  omega

theorem unknownOpcode_unrecognised_legal (c : Config) {n : Nat} (hn : n < 100) (ho : Opcode.ofCode n = none) :
    (Failure.unknownOpcode n).Legal c := by
  have hnot := Opcode.ofCode_eq_none.mp ho
  simp only [List.mem_cons, List.not_mem_nil, or_false, not_or] at hnot
  simp only [Failure.Legal]
  omega

theorem invalidMode_legal (c : Config) {w n : Nat} {e : DecodeError} (hn : n ≤ 3)
    (h : decodeModes w 1 n = .error e) : (failureOfDecode e).Legal c := by
  obtain ⟨j, hj, hbad, _, rfl⟩ := decodeModes_error h
  have := digit_le_nine w (1 + j + 1)
  simp only [failureOfDecode, Failure.Legal]
  omega

/-- The least word with a leftover digit is 199, HLT's (30_encoding.md R75). -/
theorem malformed_ge {w : Nat} {op : Opcode} (hop : w % 100 = op.code) (hl : w / 10 ^ (op.nparams + 2) ≠ 0) :
    199 ≤ w := by
  have hpow : 10 ^ (op.nparams + 2) ≤ w := by
    by_contra hlt
    exact hl (Nat.div_eq_of_lt (by omega))
  cases op <;> simp only [Opcode.nparams, Opcode.code] at hop hpow <;> omega

/-- Phases 2 to 4. -/
theorem decodeHead_error_legal {c : Config} {w : Int} (hw : InW c.w w) {e : DecodeError}
    (h : decodeHead c.strict w = .error e) : (failureOfDecode e).Legal c := by
  unfold decodeHead at h
  split at h
  · rename_i hneg
    exact Except.error.inj h ▸ unknownOpcode_negative_legal c hneg
  · rename_i hpos
    split at h
    · rename_i ho
      exact Except.error.inj h ▸ unknownOpcode_unrecognised_legal c (Nat.mod_lt _ (by decide)) ho
    · rename_i op ho
      split at h
      · rename_i e' hm
        exact Except.error.inj h ▸ invalidMode_legal c op.nparams_le hm
      · split at h
        · rename_i hl
          have hge := malformed_ge (Opcode.ofCode_eq_some ho) hl.2
          exact Except.error.inj h ▸ ⟨hl.1, by omega, hw⟩
        · cases h

/-- Phases 1 to 5. -/
theorem State.Inv.fetchInstr_error_legal {s : State} (h : s.Inv) {k : Failure} (hk : fetchInstr s = .error k) :
    k.Legal s.cfg := by
  unfold fetchInstr at hk
  by_cases hip : s.cfg.addrMax < s.ip
  · rw [fetchWord_above hip] at hk
    exact Except.error.inj hk ▸ hip
  · rw [(fetchWord_ok_iff s s.ip _).mpr ⟨by omega, rfl⟩] at hk
    cases hd : decodeHead s.cfg.strict (s.readWord s.ip) with
    | error e =>
      simp only [hd] at hk
      exact Except.error.inj hk ▸ decodeHead_error_legal (h.readWord_inW s.ip) hd
    | ok hd' =>
      simp only [hd] at hk
      cases hr : fetchRaws s (s.ip + 1) hd'.nparams with
      | ok raws => simp only [hr] at hk; cases hk
      | error k' =>
        simp only [hr] at hk
        obtain ⟨j, _, habove, _, rfl⟩ := fetchRaws_error hr
        exact Except.error.inj hk ▸ habove

/-- Phase 6, a read. -/
theorem resolveRead_error_legal {s : State} {p : Param} {k : Failure} (hp : p.wf s.cfg)
    (hk : resolveRead s p = .error k) : k.Legal s.cfg := by
  rcases resolveRead_error hk with ⟨_, hneg, rfl⟩ | ⟨_, hneg, rfl⟩ | ⟨n, hn, rfl⟩
  · exact ⟨hneg, hp⟩
  · exact hneg
  · exact hn

/-- Phase 6, a write, which is parameter 1 or 3. -/
theorem resolveWriteAddress_error_legal {s : State} {i : Nat} {p : Param} {k : Failure} (hi : i = 1 ∨ i = 3)
    (hp : p.wf s.cfg) (hk : resolveWriteAddress s i p = .error k) : k.Legal s.cfg := by
  rcases resolveWriteAddress_error hk with ⟨_, hneg, rfl⟩ | ⟨_, rfl⟩ | ⟨_, hneg, rfl⟩ | ⟨n, hn, rfl⟩
  · exact ⟨hneg, hp⟩
  · exact hi
  · exact hneg
  · exact hn

/-- Phase 7, an overflow. -/
theorem arith_error_legal {c : Config} {r : Int} {k : Failure} (hk : arith c r = .error k) : k.Legal c := by
  rcases arith_cases c r with ⟨_, h⟩ | ⟨_, _, h⟩ | ⟨hr, hovf, h⟩ <;> rw [h] at hk
  · cases hk
  · cases hk
  · exact Except.error.inj hk ▸ ⟨hovf, hr⟩

/-! ### The invariant under each instruction -/

section Exec

variable {s t : State} {i : Instr} (h : s.Inv) (hwf : i.wf s.cfg) (hip : s.ip + i.width ≤ s.cfg.addrMax + 1)
include h hwf hip

/-- ADD, MUL, LT and EQ, whose computation answers words and legal failures. -/
theorem storeResult_keeps_inv {f : Int → Int → Except Failure Int} {a b dest : Param} (hi : i.params = [a, b, dest])
    (hok : ∀ x y v, f x y = .ok v → InW s.cfg.w v) (hbad : ∀ x y k, f x y = .error k → k.Legal s.cfg)
    (ht : storeResult f a b dest s = .next t) : t.Inv := by
  have hwidth : i.width = 4 := by simp [Instr.width, hi]
  obtain ⟨ha, hb, hd⟩ : a.wf s.cfg ∧ b.wf s.cfg ∧ dest.wf s.cfg := by simpa [Instr.wf, hi] using hwf
  rcases storeResult_cases ht with ⟨k, hk, rfl⟩ | ⟨r, _, _, hw, hr, rfl⟩
  · refine h.fail ?_
    cases hk with
    | first hk => exact resolveRead_error_legal ha hk
    | second _ hk => exact resolveRead_error_legal hb hk
    | target _ _ hk => exact resolveWriteAddress_error_legal (.inr rfl) hd hk
    | result _ _ _ hk => exact hbad _ _ _ hk
  · exact (h.writeWord (destination_le hw) (hok _ _ _ hr)).retire (hwidth ▸ advance_ipBound hip) trivial

/-- ADD and MUL. -/
theorem storeArith_keeps_inv {f : Int → Int → Int} {a b dest : Param} (hi : i.params = [a, b, dest])
    (ht : storeResult (fun x y => arith s.cfg (f x y)) a b dest s = .next t) : t.Inv :=
  storeResult_keeps_inv h hwf hip hi (fun _ _ _ => arith_inW h.cfgWf) (fun _ _ _ => arith_error_legal) ht

/-- LT and EQ. -/
theorem storeTruth_keeps_inv {f : Int → Int → Bool} {a b dest : Param} (hi : i.params = [a, b, dest])
    (ht : storeResult (fun x y => .ok (truthWord (f x y))) a b dest s = .next t) : t.Inv := by
  refine storeResult_keeps_inv h hwf hip hi (fun x y v hv => ?_) (fun _ _ _ hk => by cases hk) ht
  exact Except.ok.inj hv ▸ truthWord_inW h.cfgWf _

theorem execInp_keeps_inv {dest : Param} (hi : i = .inp dest) (ht : execInp dest s = .next t) : t.Inv := by
  subst hi
  have hd : dest.wf s.cfg := hwf dest (List.mem_singleton_self _)
  rcases execInp_cases ht with ⟨k, hk, rfl⟩ | ⟨_, _, rfl⟩ | ⟨x, xs, hw, hq, rfl⟩
  · exact h.fail (resolveWriteAddress_error_legal (.inl rfl) hd hk)
  · exact h.suspend
  · have hx : InW s.cfg.w x := h.inqWords x (hq ▸ List.mem_cons_self)
    exact (h.popInput.writeWord (destination_le hw) hx).retire (advance_ipBound hip) trivial

theorem execOut_keeps_inv {a : Param} (hi : i = .out a) (ht : execOut a s = .next t) : t.Inv := by
  subst hi
  have ha : a.wf s.cfg := hwf a (List.mem_singleton_self _)
  rcases execOut_cases ht with ⟨k, hk, rfl⟩ | ⟨_, rfl⟩
  · exact h.fail (resolveRead_error_legal ha hk)
  · have hv := h.operandValue_inW ha
    exact (h.appendLog hv).retire (advance_ipBound hip) hv

/-- JT and JF: a target is a word, so at most WMAX. -/
theorem jumpWhen_keeps_inv {taken : Int → Bool} {a target : Param} (hi : i.params = [a, target])
    (ht : jumpWhen taken a target s = .next t) : t.Inv := by
  have hwidth : i.width = 3 := by simp [Instr.width, hi]
  obtain ⟨ha, hg⟩ : a.wf s.cfg ∧ target.wf s.cfg := by simpa [Instr.wf, hi] using hwf
  have hv := h.operandValue_inW hg
  rcases jumpWhen_cases ht with ⟨k, hk, rfl⟩ | ⟨_, _, _, hn, rfl⟩ | ⟨_, _, _, rfl⟩
  · refine h.fail ?_
    cases hk with
    | first hk => exact resolveRead_error_legal ha hk
    | second _ hk => exact resolveRead_error_legal hg hk
    | negative _ _ _ hneg hk => exact hk ▸ ⟨hneg, hv⟩
  · exact h.retire (le_max_of_le_right (by rw [Int.toNat_of_nonneg hn]; exact hv.2)) trivial
  · exact h.retire (hwidth ▸ advance_ipBound hip) trivial

theorem execArb_keeps_inv {a : Param} (hi : i = .arb a) (ht : execArb a s = .next t) : t.Inv := by
  subst hi
  have ha : a.wf s.cfg := hwf a (List.mem_singleton_self _)
  rcases execArb_cases ht with ⟨k, hk | ⟨_, hk⟩, rfl⟩ | ⟨r, _, hr, rfl⟩
  · exact h.fail (resolveRead_error_legal ha hk)
  · exact h.fail (arith_error_legal hk)
  · exact (h.setRb (arith_inW h.cfgWf hr)).retire (advance_ipBound hip) trivial

/-- An instruction whose raw values are words and which lies in memory whole keeps the invariant. -/
theorem exec_keeps_inv (ht : exec i s = .next t) : t.Inv := by
  cases i with
  | add a b dest => exact storeArith_keeps_inv h hwf hip rfl ht
  | mul a b dest => exact storeArith_keeps_inv h hwf hip rfl ht
  | lt a b dest => exact storeTruth_keeps_inv h hwf hip rfl ht
  | eq a b dest => exact storeTruth_keeps_inv h hwf hip rfl ht
  | inp dest => exact execInp_keeps_inv h hwf hip rfl ht
  | out a => exact execOut_keeps_inv h hwf hip rfl ht
  | jt a target => exact jumpWhen_keeps_inv h hwf hip rfl ht
  | jf a target => exact jumpWhen_keeps_inv h hwf hip rfl ht
  | arb a => exact execArb_keeps_inv h hwf hip rfl ht
  | hlt => exact next_inj ht ▸ h.retire (advance_ipBound hip) trivial

end Exec

/-- Settles O46: each operation keeps the invariant, and each phase fails with a legal record. -/
theorem stepKeepsInvariant : Obligations.StepKeepsInvariant := by
  intro s t h ht
  rcases step_cases ht with ⟨_, rfl⟩ | ⟨_, k, hk, rfl⟩ | ⟨_, i, hi, he⟩
  · exact h
  · exact h.fail (h.fetchInstr_error_legal hk)
  · exact exec_keeps_inv h (h.fetchInstr_wf hi) (fetchInstr_width hi) he

/-! ### The invariant at construction and reset -/

/-- Settles O48: the image is canonical, below its length and made of words, and every other element starts at 0 or
empty. -/
theorem constructedCoreSatisfiesInvariant : Obligations.ConstructedCoreSatisfiesInvariant := by
  intro c image inputs s hc hs
  unfold construct at hs
  split at hs
  · rename_i hok
    obtain ⟨himage, hinputs, hfits⟩ := hok
    obtain rfl := Option.some.inj hs
    exact
      { cfgWf := hc
        memCanonical := Memory.ofImage_wf 0 image
        memBelowExt := fun p hp => by
          obtain ⟨_, hlt, _, _⟩ := Memory.mem_ofImage hp
          simpa using hlt
        extInRange := hfits
        memWords := fun p hp => by
          obtain ⟨_, _, hmem, _⟩ := Memory.mem_ofImage hp
          exact himage _ hmem
        rbWord := small_inW (v := 0) hc (by decide) (by decide)
        inqWords := hinputs
        logWords := fun v hv => nomatch hv
        ipBound := le_max_of_le_left (Int.natCast_nonneg (c.addrMax + 4))
        esLegal := trivial }
  · cases hs

/-- Settles O54: the empty image reads 0 everywhere, and 0 is no opcode. -/
theorem resetIsEmptyConstruction : Obligations.ResetIsEmptyConstruction :=
  ⟨by decide, rfl⟩

/-- Settles O45: reset is a construction (O54), and every construction satisfies the invariant (O48). -/
theorem resetSatisfiesInvariant : Obligations.ResetSatisfiesInvariant :=
  constructedCoreSatisfiesInvariant Config.default [] [] State.reset (by decide) resetIsEmptyConstruction.1

end Sys2Proof.Machine

/-! Which instructions change an element of the state, and where the next step begins, read off the states an
instruction can answer (`ExecCase`). -/

namespace Sys2Proof.Machine

/-! ### Rules of the whole machine -/

/-- A step that changes a part of the state which no failure changes has run an instruction. -/
theorem step_changed_ran {α : Type} (f : State → α) (hf : ∀ (s : State) (k : Failure), f (s.fail k) = f s)
    {s t : State} (h : step s = .next t) (hne : f t ≠ f s) : ∃ i, fetchInstr s = .ok i ∧ ExecCase i s t := by
  rcases step_cases h with ⟨_, rfl⟩ | ⟨_, k, _, rfl⟩ | ⟨_, i, hi, he⟩
  · exact absurd rfl hne
  · exact absurd (hf s k) hne
  · exact ⟨i, hi, exec_cases he⟩

/-- Of the states an instruction can answer, only ARB's has another `rb`. -/
theorem ExecCase.rb_eq_or_arb {i : Instr} {s t : State} (h : ExecCase i s t) :
    t.rb = s.rb ∨ ∃ a, i = .arb a ∧ Readable s a := by
  cases h with
  | @based _ a r ha hr => exact .inr ⟨a, rfl, ha⟩
  | failed | stored | starved | took | output | jumped | fellThrough | halted => exact .inl rfl

/-- Settles O38: the step ran an instruction, and only ARB's answer has another `rb`. -/
theorem onlyArbWritesRelativeBase : Obligations.OnlyArbWritesRelativeBase := by
  intro s t h hne
  obtain ⟨i, hi, hcase⟩ := step_changed_ran State.rb State.fail_rb h hne
  obtain ⟨a, rfl, ha⟩ := hcase.rb_eq_or_arb.resolve_left hne
  exact ⟨a, hi, ha⟩

/-- Settles O40: of the states an instruction can answer, only that of an IN that found a value has another queue. -/
theorem onlyInTakesFromQueue : Obligations.OnlyInTakesFromQueue := by
  intro s t h hne
  obtain ⟨i, hi, hcase⟩ := step_changed_ran State.inq State.fail_inq h hne
  cases hcase with
  | @took _ dest x xs hd hq => exact ⟨dest, x, hi, by simp [hq], by simp⟩
  | failed | stored | starved | output | jumped | fellThrough | based | halted => exact absurd rfl hne

/-- Settles O42: no state an instruction can answer has other parameters. -/
theorem stepKeepsParameters : Obligations.StepKeepsParameters := by
  intro s t h
  by_contra hne
  obtain ⟨i, _, hcase⟩ := step_changed_ran State.cfg State.fail_cfg h hne
  cases hcase <;> exact hne rfl

/-- Settles O23: the destination resolves, and the queue's front goes there. -/
theorem inTakesOldestInput : Obligations.InTakesOldestInput := by
  intro s dest x xs hd hq
  calc exec (.inp dest) s = .next (takeInput (destination s dest) s) := execInp_writable hd
    _ = .next ((s.popInput.writeWord (destination s dest) x).retire (s.ip + 2) .continuing) := by
      rw [takeInput_front _ hq]
    _ = _ := by simp [State.retire, State.writeWord, State.popInput, hq]

/-! ### The next ip -/

/-- A taken jump: JT on a non-zero operand, JF on 0 (43_jumps.md R117, R118). -/
def TakenJump (i : Instr) (s : State) (a target : Param) : Prop :=
  (i = .jt a target ∧ operandValue s a ≠ 0) ∨ (i = .jf a target ∧ operandValue s a = 0)

theorem TakenJump.target_unique {i : Instr} {s : State} {a a' target target' : Param}
    (h : TakenJump i s a target) (h' : TakenJump i s a' target') : target' = target := by
  rcases h with ⟨rfl, _⟩ | ⟨rfl, _⟩ <;> rcases h' with ⟨⟨⟩, _⟩ | ⟨⟨⟩, _⟩ <;> rfl

theorem not_takenJump_of_width {i : Instr} (h : i.width ≠ 3) (s : State) (a target : Param) :
    ¬TakenJump i s a target := by
  rintro (⟨rfl, _⟩ | ⟨rfl, _⟩) <;> exact h rfl

/-- A jump that falls through is not taken. -/
theorem not_takenJump_of_fellThrough {i : Instr} {s : State} {a target : Param}
    (hi : (i = .jt a target ∧ operandValue s a = 0) ∨ (i = .jf a target ∧ operandValue s a ≠ 0))
    (a' target' : Param) : ¬TakenJump i s a' target' := by
  rcases hi with ⟨rfl, h0⟩ | ⟨rfl, h0⟩ <;> rintro (⟨h, h1⟩ | ⟨h, h1⟩) <;> cases h
  · exact h1 h0
  · exact h0 h1

/-- A commit sets `ip` to the target of a taken jump, and otherwise advances it by the width (40_execution_cycle.md
R96). -/
theorem ExecCase.next_ip {i : Instr} {s t : State} (h : ExecCase i s t) (hstarved : t.es ≠ .awaitingMoreInput)
    (hfailed : ∀ k fip, t.es ≠ .failed k fip) :
    (∃ a target, TakenJump i s a target ∧ (t.ip : Int) = operandValue s target) ∨
      ((∀ a target, ¬TakenJump i s a target) ∧ t.ip = s.ip + i.width) := by
  cases h with
  | failed k => exact absurd rfl (hfailed k s.ip)
  | starved hd hq => exact absurd rfl hstarved
  | stored v hw hp hd => exact .inr ⟨not_takenJump_of_width (by omega) s, by rw [hw, State.retire_ip]⟩
  | took hd hq => exact .inr ⟨not_takenJump_of_width (by simp [Instr.width, Instr.params]) s, rfl⟩
  | output ha => exact .inr ⟨not_takenJump_of_width (by simp [Instr.width, Instr.params]) s, rfl⟩
  | based ha hr => exact .inr ⟨not_takenJump_of_width (by simp [Instr.width, Instr.params]) s, rfl⟩
  | halted => exact .inr ⟨not_takenJump_of_width (by simp [Instr.width, Instr.params]) s, rfl⟩
  | jumped ht hn hi => exact .inl ⟨_, _, hi, Int.toNat_of_nonneg hn⟩
  | fellThrough hi =>
    refine .inr ⟨not_takenJump_of_fellThrough hi, ?_⟩
    rcases hi with ⟨rfl, _⟩ | ⟨rfl, _⟩ <;> rfl

/-- Settles O44: a step that neither fails nor starves ran an instruction, whose commit sets `ip`. -/
theorem nextIpIsWidthOrTarget : Obligations.NextIpIsWidthOrTarget := by
  intro s t hs h hstarved hfailed
  rcases step_cases h with ⟨hterminal, _⟩ | ⟨_, k, _, rfl⟩ | ⟨_, i, hi, he⟩
  · exact absurd (hs.symm.trans hterminal) (by decide)
  · exact absurd rfl (hfailed k s.ip)
  · refine ⟨i, hi, ?_⟩
    rcases (exec_cases he).next_ip hstarved hfailed with ⟨a, target, htaken, hip⟩ | ⟨hnot, hip⟩
    · exact ⟨fun a' target' htaken' => htaken.target_unique htaken' ▸ hip,
        fun hnot => absurd htaken (hnot a target)⟩
    · exact ⟨fun a target htaken => absurd htaken (hnot a target), fun _ => hip⟩

end Sys2Proof.Machine

/-! Noninterference: what a step decides without (10_state.md R25, R27, R28, R31). -/

namespace Sys2Proof.Machine

/-! ### How a step ends, as data

A step reads some elements of the state, and what it then does is decided. `Ending` is that decision, and `Ending.apply`
carries it out. Two states that agree on what is read end alike, whatever their other elements hold; what remains to say
of an element is how carrying out an ending treats it. -/

/-- What phases 1 to 7 decide: a failure, or the commit of phase 8. -/
inductive Ending where
  | fail (k : Failure)
  /-- ADD, MUL, LT and EQ. -/
  | store (d : Nat) (v : Int)
  /-- IN, its destination resolved; the queue is looked at when the ending is carried out. -/
  | input (d : Nat)
  | output (v : Int)
  /-- JT and JF, taken or not. -/
  | goto (n : Nat)
  | base (r : Int)
  | halt

/-- The state after an ending. -/
def Ending.apply : Ending → State → State
  | .fail k, s => s.fail k
  | .store d v, s => (s.writeWord d v).retire (s.ip + 4) .continuing
  | .input d, s => takeInput d s
  | .output v, s => (s.appendLog v).retire (s.ip + 2) (.producedOutput v)
  | .goto n, s => s.retire n .continuing
  | .base r, s => (s.setRb r).retire (s.ip + 2) .continuing
  | .halt, s => s.retire (s.ip + 1) .halted

/-- From every state in `P` the phases `m` end in one way. -/
def EndAlike (P : State → Prop) (m : State → Except Failure State) : Prop :=
  ∃ e : Ending, ∀ s, P s → settle s (m s) = .next (e.apply s)

theorem EndAlike.commit {P : State → Prop} {m : State → Except Failure State} (e : Ending)
    (h : ∀ s, P s → m s = .ok (e.apply s)) : EndAlike P m :=
  ⟨e, fun s hs => by rw [h s hs, settle_ok]⟩

/-- A phase that answers alike from every state in `P` may be followed by phases that end alike. -/
theorem EndAlike.bind {α : Type} {P : State → Prop} {x : State → Except Failure α}
    {m : α → State → Except Failure State} (x₀ : Except Failure α) (hx : ∀ s, P s → x s = x₀)
    (hm : ∀ v, EndAlike P (m v)) : EndAlike P fun s => x s >>= fun v => m v s := by
  cases x₀ with
  | error k => exact ⟨.fail k, fun s hs => by simp only [hx s hs, error_bind, settle_error, Ending.apply]⟩
  | ok v =>
    obtain ⟨e, he⟩ := hm v
    exact ⟨e, fun s hs => by simp only [hx s hs, ok_bind, he s hs]⟩

/-! ### What an instruction reads -/

/-- What phases 6 and 7 of `i` read in `s` is the same in `s'`: the parameters of the machine, ip, the operands, and for
ARB the relative base. -/
structure ReadsAlike (i : Instr) (s s' : State) : Prop where
  cfg : s'.cfg = s.cfg
  ip : s'.ip = s.ip
  read : ∀ p ∈ i.params, resolveRead s' p = resolveRead s p
  write : ∀ p ∈ i.params, ∀ n, resolveWriteAddress s' n p = resolveWriteAddress s n p
  base : ∀ a, i = .arb a → s'.rb = s.rb

section Exec

variable (s : State) {i : Instr}

theorem storeResult_endsAlike {a b dest : Param} (f : Config → Int → Int → Except Failure Int)
    (hi : i.params = [a, b, dest]) :
    ∃ e : Ending, ∀ s', ReadsAlike i s s' → storeResult (f s'.cfg) a b dest s' = .next (e.apply s') :=
  EndAlike.bind _ (fun _ h => h.read a (by simp [hi])) fun v₁ =>
    EndAlike.bind _ (fun _ h => h.read b (by simp [hi])) fun v₂ =>
      EndAlike.bind _ (fun _ h => h.write dest (by simp [hi]) 3) fun d =>
        EndAlike.bind (f s.cfg v₁ v₂) (fun _ h => by rw [h.cfg]) fun r => .commit (.store d r) fun _ _ => rfl

theorem jumpWhen_endsAlike {a target : Param} (taken : Int → Bool) (hi : i.params = [a, target]) :
    ∃ e : Ending, ∀ s', ReadsAlike i s s' → jumpWhen taken a target s' = .next (e.apply s') := by
  refine EndAlike.bind _ (fun _ h => h.read a (by simp [hi])) fun v₁ =>
    EndAlike.bind _ (fun _ h => h.read target (by simp [hi])) fun v₂ => ?_
  cases taken v₁ with
  | true => exact EndAlike.bind (jumpTarget v₂) (fun _ _ => rfl) fun n => .commit (.goto n) fun _ _ => rfl
  | false => exact .commit (.goto (s.ip + 3)) fun s' h => by rw [← h.ip]; rfl

/-- An instruction ends alike in every state that agrees on what it reads. -/
theorem exec_endsAlike (i : Instr) :
    ∃ e : Ending, ∀ s', ReadsAlike i s s' → exec i s' = .next (e.apply s') := by
  cases i with
  | add a b dest => exact storeResult_endsAlike s (fun c x y => arith c (x + y)) rfl
  | mul a b dest => exact storeResult_endsAlike s (fun c x y => arith c (x * y)) rfl
  | lt a b dest => exact storeResult_endsAlike s (fun _ x y => .ok (truthWord (decide (x < y)))) rfl
  | eq a b dest => exact storeResult_endsAlike s (fun _ x y => .ok (truthWord (decide (x = y)))) rfl
  | inp dest =>
    exact EndAlike.bind _ (fun _ h => h.write dest (by simp [Instr.params]) 1) fun d =>
      .commit (.input d) fun _ _ => rfl
  | out a =>
    exact EndAlike.bind _ (fun _ h => h.read a (by simp [Instr.params])) fun v => .commit (.output v) fun _ _ => rfl
  | jt a target => exact jumpWhen_endsAlike s _ rfl
  | jf a target => exact jumpWhen_endsAlike s _ rfl
  | arb a =>
    exact EndAlike.bind _ (fun _ h => h.read a (by simp [Instr.params])) fun v =>
      EndAlike.bind (arith s.cfg (s.rb + v)) (fun _ h => by rw [h.cfg, h.base a rfl]) fun r =>
        .commit (.base r) fun _ _ => rfl
  | hlt => exact ⟨.halt, fun _ _ => rfl⟩

end Exec

/-- An operand resolves by the parameters of the machine, memory, and in relative mode `rb` (20_memory.md R57). -/
theorem readsAlike_of_rb {i : Instr} {s s' : State} (hcfg : s'.cfg = s.cfg) (hmem : s'.mem = s.mem)
    (hip : s'.ip = s.ip) (hrb : ∀ p ∈ i.params, p.mode = .relative → s'.rb = s.rb)
    (hbase : ∀ a, i = .arb a → s'.rb = s.rb) : ReadsAlike i s s' where
  cfg := hcfg
  ip := hip
  base := hbase
  read p hp := by
    unfold resolveRead positionAddress relativeAddress readAt State.readWord
    cases hm : p.mode with
    | position => rw [hcfg, hmem]
    | immediate => rfl
    | relative => rw [hcfg, hmem, hrb p hp hm]
  write p hp n := by
    unfold resolveWriteAddress positionAddress relativeAddress
    cases hm : p.mode with
    | position => rw [hcfg]
    | immediate => rfl
    | relative => rw [hcfg, hrb p hp hm]

/-! ### What a step reads -/

/-- The elements a step reads before it commits: the parameters of the machine, memory, ip and rb. -/
structure AgreeOnRead (s s' : State) : Prop where
  cfg : s'.cfg = s.cfg
  mem : s'.mem = s.mem
  ip : s'.ip = s.ip
  rb : s'.rb = s.rb

section Step

variable {s s' : State} (h : AgreeOnRead s s')
include h

theorem AgreeOnRead.readsAlike (i : Instr) : ReadsAlike i s s' :=
  readsAlike_of_rb h.cfg h.mem h.ip (fun _ _ _ => h.rb) fun _ _ => h.rb

theorem AgreeOnRead.fetchWord (a : Nat) : fetchWord s' a = fetchWord s a := by
  simp only [Machine.fetchWord, h.cfg, State.readWord_congr h.mem]

theorem AgreeOnRead.fetchRaws (a n : Nat) : fetchRaws s' a n = fetchRaws s a n := by
  induction n generalizing a with
  | zero => rfl
  | succ n ih => simp only [Machine.fetchRaws, h.fetchWord, ih]

theorem AgreeOnRead.fetchInstr : fetchInstr s' = fetchInstr s := by
  simp only [Machine.fetchInstr, h.cfg, h.ip, h.fetchWord, h.fetchRaws]

end Step

/-- A step ends alike from every non-terminal state that agrees on what it reads: `ext`, the queue, the log and `es`
decide nothing. -/
theorem step_endsAlike (s : State) :
    ∃ e : Ending, ∀ s', s'.es.terminal = false → AgreeOnRead s s' → step s' = .next (e.apply s') := by
  cases hf : fetchInstr s with
  | error k => exact ⟨.fail k, fun s' hs' h => step_fetch_fails hs' (h.fetchInstr.trans hf)⟩
  | ok i =>
    obtain ⟨e, he⟩ := exec_endsAlike s i
    exact ⟨e, fun s' hs' h => (step_runs hs' (h.fetchInstr.trans hf)).trans (he s' (h.readsAlike i))⟩

/-! ### How an ending treats an element it was not decided by -/

/-- The old execution state is overwritten by every ending. -/
theorem Ending.apply_es (e : Ending) (s : State) (x : ExecState) : e.apply { s with es := x } = e.apply s := by
  cases e with
  | input d =>
    obtain ⟨cfg, mem, ext, ip, rb, inq, log, es⟩ := s
    cases inq <;> rfl
  | fail | store | output | goto | base | halt => rfl

/-- The extent decides nothing but the extent. -/
theorem Ending.apply_ext (e : Ending) (s : State) (n : Nat) :
    ∃ m, e.apply { s with ext := n } = { e.apply s with ext := m } := by
  cases e with
  | store d v => exact ⟨max n (d + 1), rfl⟩
  | input d =>
    obtain ⟨cfg, mem, ext, ip, rb, inq, log, es⟩ := s
    cases inq with
    | nil => exact ⟨n, rfl⟩
    | cons x xs => exact ⟨max n (d + 1), rfl⟩
  | fail | output | goto | base | halt => exact ⟨n, rfl⟩

/-- The relative base decides nothing but the relative base. -/
theorem Ending.apply_rb (e : Ending) (s : State) (r : Int) :
    ∃ r', e.apply { s with rb := r } = { e.apply s with rb := r' } := by
  cases e with
  | base r' => exact ⟨r', rfl⟩
  | input d =>
    obtain ⟨cfg, mem, ext, ip, rb, inq, log, es⟩ := s
    cases inq <;> exact ⟨r, rfl⟩
  | fail | store | output | goto | halt => exact ⟨r, rfl⟩

/-- Values behind the queue stay behind it, unless an input finds the queue without them empty (42_io.md R109). -/
theorem Ending.apply_inq_append (e : Ending) {s : State} (vs : List Int)
    (h : (e.apply s).es ≠ .awaitingMoreInput) :
    e.apply { s with inq := s.inq ++ vs } = { e.apply s with inq := (e.apply s).inq ++ vs } := by
  cases e with
  | input d =>
    obtain ⟨cfg, mem, ext, ip, rb, inq, log, es⟩ := s
    cases inq with
    | nil => exact absurd rfl h
    | cons x xs => rfl
  | fail | store | output | goto | base | halt => rfl

/-! ### What a step cannot see -/

/-- Settles O8: the step ends alike whatever `es` was, and the ending overwrites it. -/
theorem oldExecutionStateHasNoEffect : Obligations.OldExecutionStateHasNoEffect := by
  intro s x hs hx
  obtain ⟨e, he⟩ := step_endsAlike s
  calc step { s with es := x } = .next (e.apply { s with es := x }) := he _ hx ⟨rfl, rfl, rfl, rfl⟩
    _ = .next (e.apply s) := by rw [e.apply_es]
    _ = step s := (he s hs ⟨rfl, rfl, rfl, rfl⟩).symm

/-- Settles O50: the step ends alike whatever the extent, and its ending leaves only the extent different. -/
theorem extentIsNeverRead : Obligations.ExtentIsNeverRead := by
  intro s t n h
  cases hs : s.es.terminal with
  | true =>
    obtain rfl := next_inj ((step_terminal hs).symm.trans h)
    exact ⟨n, step_terminal hs⟩
  | false =>
    obtain ⟨e, he⟩ := step_endsAlike s
    obtain rfl := next_inj ((he s hs ⟨rfl, rfl, rfl, rfl⟩).symm.trans h)
    obtain ⟨m, hm⟩ := e.apply_ext s n
    exact ⟨m, hm ▸ he { s with ext := n } hs ⟨rfl, rfl, rfl, rfl⟩⟩

/-- Settles O51: the step ends alike whatever stands behind the queue, and its ending carries those values along. -/
theorem queueTailIsUnseen : Obligations.QueueTailIsUnseen := by
  intro s t vs h hstarved
  cases hs : s.es.terminal with
  | true =>
    obtain rfl := next_inj ((step_terminal hs).symm.trans h)
    exact step_terminal hs
  | false =>
    obtain ⟨e, he⟩ := step_endsAlike s
    obtain rfl := next_inj ((he s hs ⟨rfl, rfl, rfl, rfl⟩).symm.trans h)
    exact e.apply_inq_append vs hstarved ▸ he { s with inq := s.inq ++ vs } hs ⟨rfl, rfl, rfl, rfl⟩

/-- Settles O52: without a relative operand the instruction ends alike whatever `rb` is, and only ARB writes it. -/
theorem relativeBaseReadOnlyByRelativeMode : Obligations.RelativeBaseReadOnlyByRelativeMode := by
  intro s t i r hmode harb h
  obtain ⟨e, he⟩ := exec_endsAlike s i
  have alike (r : Int) : ReadsAlike i s { s with rb := r } :=
    readsAlike_of_rb rfl rfl rfl (fun p hp hm => absurd hm (hmode p hp)) fun a ha => absurd ha (harb a)
  obtain rfl := next_inj ((he s (alike s.rb)).symm.trans h)
  have hexec := he _ (alike r)
  obtain ⟨r', hr'⟩ := e.apply_rb s r
  have hkept : (e.apply { s with rb := r }).rb = r :=
    (exec_cases hexec).rb_eq_or_arb.resolve_right fun ⟨a, ha, _⟩ => harb a ha
  rw [hr'] at hexec hkept
  exact hkept ▸ hexec

end Sys2Proof.Machine

/-! What ADD and MUL write, which words of memory and which extent a step can change (20_memory.md R45, R47), and what a
turn of the composition driver changes in a ring of cores (20_memory.md R64). -/

namespace Sys2Proof.Machine

/-! ### ADD and MUL: the exact result, the reduced result, or the overflow failure -/

theorem arith_of_inW {c : Config} {r : Int} (h : InW c.w r) : arith c r = .ok r := by
  rcases arith_cases c r with ⟨_, hr⟩ | ⟨hn, _⟩ | ⟨hn, _⟩
  · exact hr
  · exact absurd h hn
  · exact absurd h hn

theorem arith_of_wrap {c : Config} {r : Int} (h : ¬InW c.w r) (ho : c.ovf = .wrap) : arith c r = .ok (wrapW c r) := by
  simp only [arith, if_neg h, ho]

theorem arith_of_fault {c : Config} {r : Int} (h : ¬InW c.w r) (ho : c.ovf = .fault) :
    arith c r = .error (.arithmeticOverflow r) := by
  simp only [arith, if_neg h, ho]

/-- What ADD and MUL answer once their operands resolve, `g` being the exact operation (40_execution_cycle.md R103). -/
theorem storeArith_answers (g : Int → Int → Int) {s : State} {a b dest : Param} {r : Int} (ha : Readable s a)
    (hb : Readable s b) (hd : Writable s dest) (hr : r = g (operandValue s a) (operandValue s b)) :
    (InW s.cfg.w r →
      storeResult (fun x y => arith s.cfg (g x y)) a b dest s =
        .next ((s.writeWord (destination s dest) r).retire (s.ip + 4) .continuing)) ∧
    (¬InW s.cfg.w r → s.cfg.ovf = .wrap →
      storeResult (fun x y => arith s.cfg (g x y)) a b dest s =
        .next ((s.writeWord (destination s dest) (wrapW s.cfg r)).retire (s.ip + 4) .continuing)) ∧
    (¬InW s.cfg.w r → s.cfg.ovf = .fault →
      storeResult (fun x y => arith s.cfg (g x y)) a b dest s = .next (s.fail (.arithmeticOverflow r))) := by
  subst hr
  refine ⟨fun h => ?_, fun h ho => ?_, fun h ho => ?_⟩
  · exact storeResult_completes ha hb hd (arith_of_inW h)
  · exact storeResult_completes ha hb hd (arith_of_wrap h ho)
  · exact storeResult_fails (.result ha hb hd (arith_of_fault h ho))

/-- Settles O19: the operands resolve, and the sum is the exact operation. -/
theorem addWritesSum : Obligations.AddWritesSum :=
  fun _ _ _ _ _ ha hb hd hr => storeArith_answers (· + ·) ha hb hd hr

/-- Settles O20: the operands resolve, and the product is the exact operation. -/
theorem mulWritesProduct : Obligations.MulWritesProduct :=
  fun _ _ _ _ _ ha hb hd hr => storeArith_answers (· * ·) ha hb hd hr

/-! ### Memory and its extent -/

/-- An instruction leaves memory and its extent alone, or writes one word, at its destination. -/
theorem ExecCase.mem_eq_or_written {i : Instr} {s t : State} (h : ExecCase i s t) :
    (t.mem = s.mem ∧ t.ext = s.ext) ∨
      ∃ dest v, destParam i = some dest ∧ Writable s dest ∧ t.mem = s.mem.write (destination s dest) v ∧
        t.ext = max s.ext (destination s dest + 1) := by
  cases h with
  | @stored _ _ dest v _ hp hd => exact .inr ⟨dest, v, hp, hd, rfl, rfl⟩
  | @took _ dest x _ hd _ => exact .inr ⟨dest, x, rfl, hd, rfl, rfl⟩
  | failed | starved | output | jumped | fellThrough | based | halted => exact .inl ⟨rfl, rfl⟩

/-- Settles O39: the step ran an instruction that wrote memory, and a write changes no word but its own. -/
theorem onlyFiveInstructionsWriteMemory : Obligations.OnlyFiveInstructionsWriteMemory := by
  intro s t x h hne
  obtain ⟨i, hi, hcase⟩ := step_changed_ran (fun s => s.readWord x) (fun s k => s.fail_readWord k x) h hne
  rcases hcase.mem_eq_or_written with ⟨hmem, _⟩ | ⟨dest, v, hp, hd, hmem, _⟩
  · exact absurd (State.readWord_congr hmem x) hne
  · refine ⟨i, dest, hi, hp, hd, ?_⟩
    by_contra hx
    have hread : t.readWord x = s.readWord x := by
      rw [State.readWord, hmem, Memory.read_write, if_neg hx, State.readWord]
    exact hne hread

/-- Settles O43: a step that changed the extent ran an instruction that wrote memory, whose new extent is the larger of
the old one and one past the destination. -/
theorem extentGrowsToWrittenAddress : Obligations.ExtentGrowsToWrittenAddress := by
  intro s t h
  rcases eq_or_ne t.ext s.ext with heq | hne
  · exact ⟨heq.ge, fun hne => absurd heq hne⟩
  · obtain ⟨i, hi, hcase⟩ := step_changed_ran State.ext State.fail_ext h hne
    obtain ⟨_, hext⟩ | ⟨dest, v, hp, _, _, hext⟩ := hcase.mem_eq_or_written
    · exact absurd hext hne
    · exact ⟨hext ▸ le_max_left _ _, fun _ => ⟨i, dest, hi, hp, by omega⟩⟩

/-! ### A push in a ring of cores -/

section Push

variable {r : Ring} {i : Nat} {v : Int} {u : State}

theorem Ring.push_refused (hu : r.cores[i]? = some u) (hp : pushInput v u = none) : r.push i v = r := by
  simp only [Ring.push, hu, hp]

theorem Ring.push_accepted {u' : State} (hu : r.cores[i]? = some u) (hp : pushInput v u = some u') :
    r.push i v = r.setCore i u' := by
  simp only [Ring.push, hu, hp]

theorem Ring.push_cases (r : Ring) (i : Nat) (v : Int) : r.push i v = r ∨ ∃ u', r.push i v = r.setCore i u' := by
  cases hu : r.cores[i]? with
  | none => exact .inl (by simp only [Ring.push, hu])
  | some u =>
    cases hp : pushInput v u with
    | none => exact .inl (Ring.push_refused hu hp)
    | some u' => exact .inr ⟨u', Ring.push_accepted hu hp⟩

@[simp] theorem Ring.push_turn (r : Ring) (i : Nat) (v : Int) : (r.push i v).turn = r.turn := by
  rcases r.push_cases i v with h | ⟨u', h⟩ <;> rw [h]
  exact r.setCore_turn i u'

theorem Ring.setCore_core_same {t : State} (h : r.cores[i]? = some t) : (r.setCore i u).cores[i]? = some u := by
  rw [Ring.setCore_core h, if_pos rfl]

theorem Ring.setCore_core_other {j : Nat} (hj : j ≠ i) : (r.setCore i u).cores[j]? = r.cores[j]? :=
  List.getElem?_set_ne hj.symm

/-- A push touches one core. -/
theorem Ring.push_core_other {j : Nat} (hj : j ≠ i) : (r.push i v).cores[j]? = r.cores[j]? := by
  rcases r.push_cases i v with h | ⟨u', h⟩ <;> rw [h]
  exact Ring.setCore_core_other hj

end Push

/-! ### A turn of the driver -/

/-- Whatever a turn's run returns, the turn stores the state it returned and then does nothing to the cores but push. -/
theorem driverTurn_cores {p : DriverParams} {fuel : Nat} {r r' : Ring} (h : driverTurn p fuel r = some r') :
    ∃ s t qs, r.cores[r.turn]? = some s ∧ runFor fuel s = some t ∧
      r'.cores = ((r.setCore r.turn t).pushAll qs).cores := by
  unfold driverTurn at h
  cases hs : r.cores[r.turn]? with
  | none => simp [hs] at h
  | some s =>
    cases ht : runFor fuel s with
    | none => simp [hs, ht] at h
    | some t =>
      refine ⟨s, t, ?_⟩
      simp only [hs, ht] at h
      cases hes : t.es <;> simp only [hes, reduceCtorEq, Option.some.injEq] at h <;> subst h
      case producedOutput v => exact ⟨[(r.after r.turn, v)], rfl, ht, rfl⟩
      case halted => exact ⟨[], rfl, ht, rfl⟩
      case awaitingMoreInput | failed => exact ⟨_, rfl, ht, Ring.react_cores _ _⟩

/-- A turn whose run ends with an output (60_exceptions.md R141). -/
theorem driverTurn_output (p : DriverParams) {fuel : Nat} {r : Ring} {s t : State} {v : Int}
    (hs : r.cores[r.turn]? = some s) (ht : runFor fuel s = some t) (hes : t.es = .producedOutput v) :
    driverTurn p fuel r = some (((r.setCore r.turn t).push (r.after r.turn) v).advance) := by
  simp only [driverTurn, hs, ht, hes]

/-- Every turn: the core that ran holds the state it ran to, and queues may have grown at the tail. -/
theorem driverTurn_frame {p : DriverParams} {fuel : Nat} {r r' : Ring} (h : driverTurn p fuel r = some r') :
    r'.cores.length = r.cores.length ∧
      (∀ s, r.cores[r.turn]? = some s →
        ∃ t vs, runFor fuel s = some t ∧ r'.cores[r.turn]? = some { t with inq := t.inq ++ vs }) ∧
      ∀ j s, j ≠ r.turn → r.cores[j]? = some s → ∃ vs, r'.cores[j]? = some { s with inq := s.inq ++ vs } := by
  obtain ⟨s, t, qs, hs, ht, hcores⟩ := driverTurn_cores h
  rw [hcores]
  refine ⟨by simp, fun s' hs' => ?_, fun j s' hj hs' => ?_⟩
  · obtain rfl := Option.some.inj (hs.symm.trans hs')
    obtain ⟨vs, hvs⟩ := Ring.pushAll_core qs (Ring.setCore_core_same (u := t) hs)
    exact ⟨t, vs, ht, hvs⟩
  · exact Ring.pushAll_core qs ((Ring.setCore_core_other hj).trans hs')

/-- The ring after a turn that takes an output: the core that ran, the next core, and no other, is touched. -/
theorem Ring.output_turn {r : Ring} {n : Nat} {s t u : State} (v : Int) (hs : r.cores[r.turn]? = some s)
    (hn : n ≠ r.turn) (hu : r.cores[n]? = some u) :
    ((r.setCore r.turn t).push n v).cores[r.turn]? = some t ∧
      (∀ u', pushInput v u = some u' → ((r.setCore r.turn t).push n v).cores[n]? = some u') ∧
      (pushInput v u = none → ((r.setCore r.turn t).push n v).cores[n]? = some u) ∧
      ∀ j, j ≠ r.turn → j ≠ n → ((r.setCore r.turn t).push n v).cores[j]? = r.cores[j]? := by
  have hnext : (r.setCore r.turn t).cores[n]? = some u := (Ring.setCore_core_other hn).trans hu
  refine ⟨?_, fun u' hp => ?_, fun hp => ?_, fun j hj hjn => ?_⟩
  · exact (Ring.push_core_other hn.symm).trans (Ring.setCore_core_same hs)
  · rw [Ring.push_accepted hnext hp]
    exact Ring.setCore_core_same hnext
  · rw [Ring.push_refused hnext hp, hnext]
  · exact (Ring.push_core_other hjn).trans (Ring.setCore_core_other hj)

/-- Settles O59: a turn stores the state its run returned and pushes; a turn that takes an output pushes once. -/
theorem ringTurnMovesOneValue : Obligations.RingTurnMovesOneValue := by
  refine ⟨fun _ _ _ _ h => driverTurn_frame h, fun p fuel r s t u v hs ht hes hn hu => ?_⟩
  exact ⟨_, driverTurn_output p hs ht hes, by simp [Ring.after], by simp, Ring.output_turn v hs hn hu⟩

end Sys2Proof.Machine

/-! What the encoder's words are, digit by digit, and that the decoder reads each instruction back from them
(30_encoding.md R67, R84). -/

namespace Sys2Proof

/-! ### The digits of the encoded instruction word -/

theorem digit_succ (n k : Nat) : digit n (k + 1) = digit (n / 10) k := by
  rw [digit, digit, Nat.div_div_eq_div_mul, pow_succ']

/-- Mode digits stand one above the other, the first parameter's lowest. -/
theorem encodeModes_cons (p : Param) (ps : List Param) :
    encodeModes 0 (p :: ps) = p.mode.digit + 10 * encodeModes 0 ps := by
  rw [encodeModes, encodeModes_eq (0 + 1)]
  simp

/-- Each digit of the mode digits is the mode of the parameter at its place. -/
theorem digit_encodeModes (ps : List Param) (j : Nat) (h : j < ps.length) :
    digit (encodeModes 0 ps) j = ps[j].mode.digit := by
  induction ps generalizing j with
  | nil => cases h
  | cons p ps ih =>
    have hle := p.mode.digit_le
    rw [encodeModes_cons]
    cases j with
    | zero =>
      simp only [digit, pow_zero, Nat.div_one, List.getElem_cons_zero]
      omega
    | succ j =>
      have hdiv : (p.mode.digit + 10 * encodeModes 0 ps) / 10 = encodeModes 0 ps := by omega
      rw [digit_succ, hdiv]
      exact ih j (Nat.lt_of_succ_lt_succ h)

/-- Above the two opcode digits stand the mode digits (R66). -/
theorem digit_encodeHead (i : Instr) (j : Nat) (h : j < i.params.length) :
    digit (encodeHead i) (j + 2) = i.params[j].mode.digit := by
  have hlt := i.opcode.code_lt
  have hdiv : encodeHead i / 10 / 10 = encodeModes 0 i.params := by
    rw [encodeHead_eq]
    omega
  rw [digit_succ, digit_succ, hdiv, digit_encodeModes _ _ h]

/-! ### Decoding an encoding -/

theorem decodeModes_encodeHead (i : Instr) :
    decodeModes (encodeHead i) 1 i.opcode.nparams = .ok (i.params.map Param.mode) := by
  refine (decodeModes_ok_iff _ _ _ _).mpr ⟨by simp [Instr.params_length], fun j hj => ?_⟩
  rw [show 1 + j + 1 = j + 2 by omega, digit_encodeHead i j (by simpa using hj), List.getElem_map]

/-- Either decoder accepts the encoded word: its opcode and its modes are legal, and no digit is left over. -/
theorem decodeHead_encodeHead (strict : Bool) (i : Instr) :
    decodeHead strict (encodeHead i) = .ok ⟨i.opcode, i.params.map Param.mode⟩ :=
  decodeHead_accepts (Int.natCast_nonneg _) (encodeHead_mod i) (decodeModes_encodeHead i)
    fun _ => Nat.div_eq_of_lt (encodeHead_lt i)

/-- An instruction is its head applied to its raw values. -/
theorem Head.instr_of_params (i : Instr) :
    (⟨i.opcode, i.params.map Param.mode⟩ : Head).instr (i.params.map Param.raw) = i := by
  have hparam (j : Nat) : (⟨(i.params.map Param.mode).getD j .position, (i.params.map Param.raw).getD j 0⟩ : Param) =
      i.params.getD j ⟨.position, 0⟩ := by
    simp only [List.getD_eq_getElem?_getD, List.getElem?_map]
    cases i.params[j]? <;> rfl
  simp only [Head.instr, hparam, Instr.opcode_instr]

/-- Settles O2: the head is read back from its digits, and the head says how many raw values follow. -/
theorem decodeOfEncode : Obligations.DecodeOfEncode := by
  intro strict i rest
  have hlen : (i.params.map Param.raw).length = i.opcode.nparams := by rw [List.length_map, Instr.params_length]
  simp only [decode, encode, List.cons_append, List.headD_cons, List.tail_cons, List.drop_succ_cons,
    decodeHead_encodeHead, Head.nparams, List.take_left' hlen, List.drop_left' hlen, Head.instr_of_params]

/-! ### The words of each format -/

theorem encode_of_one_param {i : Instr} {a : Param} (h : i.params = [a]) :
    encode i = [((i.opcode.code + 100 * a.mode.digit : Nat) : Int), a.raw] := by
  simp [encode, encodeHead, encodeModes, h, Nat.mul_comm]

theorem encode_of_two_params {i : Instr} {a b : Param} (h : i.params = [a, b]) :
    encode i = [((i.opcode.code + 100 * a.mode.digit + 1000 * b.mode.digit : Nat) : Int), a.raw, b.raw] := by
  simp [encode, encodeHead, encodeModes, h, Nat.mul_comm, Nat.add_assoc]

theorem encode_of_three_params {i : Instr} {a b c : Param} (h : i.params = [a, b, c]) :
    encode i = [((i.opcode.code + 100 * a.mode.digit + 1000 * b.mode.digit + 10000 * c.mode.digit : Nat) : Int),
      a.raw, b.raw, c.raw] := by
  simp [encode, encodeHead, encodeModes, h, Nat.mul_comm, Nat.add_assoc]

/-- Settles O5: the parameters of an instruction fix its format, one lemma for each number of them. -/
theorem instructionPatterns : Obligations.InstructionPatterns := by
  rintro a b c _ _ _ rfl rfl rfl
  refine ⟨⟨rfl, rfl⟩,
    ⟨encode_of_one_param rfl, encode_of_one_param rfl, encode_of_one_param rfl, ?width2⟩,
    ⟨encode_of_two_params rfl, encode_of_two_params rfl, ?width3⟩,
    ⟨encode_of_three_params rfl, encode_of_three_params rfl, encode_of_three_params rfl, encode_of_three_params rfl,
      ?width4⟩⟩
  case width2 | width3 | width4 => simp [Instr.width, Instr.params]

/-- Settles O1, by running the decoder on each of the fixed words. -/
theorem specWordsDecode : Obligations.SpecWordsDecode :=
  ⟨rfl, rfl, rfl, rfl, rfl, rfl, rfl, rfl, rfl, rfl, rfl, rfl, rfl, rfl, rfl⟩

end Sys2Proof

/-! The execution cycle: what the opcode phase and the mode multiplexer answer, and the frame of each group of
instructions, read off the states an instruction can answer (40_execution_cycle.md R88, R92, R93, R95, R96). -/

namespace Sys2Proof

/-! ### Phase 2: the opcode -/

theorem decodeHead_negative (strict : Bool) {w : Int} (h : w < 0) :
    decodeHead strict w = .error (.unknownOpcode (w.tmod 100)) := by
  simp only [decodeHead, if_pos h]

/-- A word whose opcode is outside the recognised set of 30_encoding.md R72. -/
theorem decodeHead_unrecognised (strict : Bool) {w : Int} (h0 : 0 ≤ w)
    (h : w % 100 ∉ ([1, 2, 3, 4, 5, 6, 7, 8, 9, 99] : List Int)) :
    decodeHead strict w = .error (.unknownOpcode (w % 100)) := by
  lift w to ℕ using h0
  have hnone : Opcode.ofCode (w % 100) = none := Opcode.ofCode_eq_none.mpr fun hmem => h (by
    simp only [List.mem_cons, List.not_mem_nil, or_false] at hmem ⊢
    omega)
  have h0' : ¬(w : Int) < 0 := by omega
  simp only [decodeHead, if_neg h0', Int.toNat_natCast, hnone, Int.natCast_mod, Nat.cast_ofNat]

/-- NPARAMS as a table over the opcode's number (40_execution_cycle.md R88). -/
theorem Opcode.nparams_of_code (op : Opcode) :
    ((op.code : Int) ∈ ([1, 2, 7, 8] : List Int) → op.nparams = 3) ∧
    ((op.code : Int) ∈ ([3, 4, 9] : List Int) → op.nparams = 1) ∧
    ((op.code : Int) ∈ ([5, 6] : List Int) → op.nparams = 2) ∧
    ((op.code : Int) = 99 → op.nparams = 0) := by
  cases op <;> decide

end Sys2Proof

namespace Sys2Proof.Machine

theorem fetchInstr_rejects {s : State} {e : DecodeError} (hip : s.ip ≤ s.cfg.addrMax)
    (hd : decodeHead s.cfg.strict (s.readWord s.ip) = .error e) : fetchInstr s = .error (failureOfDecode e) := by
  simp only [fetchInstr, (fetchWord_ok_iff s s.ip _).mpr ⟨hip, rfl⟩, hd]

/-- A word that phases 2 to 4 reject fails the step (30_encoding.md R76). -/
theorem step_rejects {s : State} {e : DecodeError} (hs : s.es.terminal = false) (hip : s.ip ≤ s.cfg.addrMax)
    (hd : decodeHead s.cfg.strict (s.readWord s.ip) = .error e) : step s = .next (s.fail (failureOfDecode e)) :=
  step_fetch_fails hs (fetchInstr_rejects hip hd)

/-- A fetched instruction has the opcode of the word at `ip`, which is not negative. -/
theorem fetchInstr_opcode {s : State} {i : Instr} (h : fetchInstr s = .ok i) :
    0 ≤ s.readWord s.ip ∧ s.readWord s.ip % 100 = i.opcode.code := by
  obtain ⟨hd, hhead, _, rfl⟩ := (fetchInstr_ok_iff s i).mp h
  obtain ⟨h0, hcode, _, _⟩ := decodeHead_ok hhead
  rw [Head.instr_opcode]
  exact ⟨h0, by omega⟩

/-- Settles O10: the decoder rejects a negative or unrecognised word, and a fetched instruction has as many parameters as
its opcode's number says. -/
theorem opcodePhase : Obligations.OpcodePhase := by
  intro s hs hip
  refine ⟨fun hneg => ?_, fun h0 hcode => ?_, fun i hi => ?_⟩
  · exact step_rejects hs hip (decodeHead_negative _ hneg)
  · exact step_rejects hs hip (decodeHead_unrecognised _ h0 hcode)
  · obtain ⟨h0, hcode⟩ := fetchInstr_opcode hi
    rw [hcode, Instr.params_length]
    exact ⟨h0, rfl, i.opcode.nparams_of_code⟩

/-! ### Phase 6: the paths of the mode multiplexer -/

/-- The range check, clause by clause (20_memory.md R57). -/
theorem checkAddress_answers (c : Config) (neg : Int → Failure) (a : Int) :
    (AddressOk c a → checkAddress c neg a = .ok a.toNat) ∧
    (a < 0 → checkAddress c neg a = .error (neg a)) ∧
    ((c.addrMax : Int) < a → checkAddress c neg a = .error (.addressOutOfRange a.toNat)) :=
  ⟨fun h => (checkAddress_ok_iff c neg a _).mpr ⟨h, rfl⟩, checkAddress_negative c neg, checkAddress_above c neg⟩

/-- The read through the range check passes the failures on. -/
theorem readAt_checkAddress_answers (s : State) (neg : Int → Failure) (a : Int) :
    (AddressOk s.cfg a → readAt s (checkAddress s.cfg neg a) = .ok (s.readWord a.toNat)) ∧
    (a < 0 → readAt s (checkAddress s.cfg neg a) = .error (neg a)) ∧
    ((s.cfg.addrMax : Int) < a → readAt s (checkAddress s.cfg neg a) = .error (.addressOutOfRange a.toNat)) := by
  obtain ⟨hok, hneg, habove⟩ := checkAddress_answers s.cfg neg a
  exact ⟨fun h => by rw [hok h, readAt], fun h => by rw [hneg h, readAt], fun h => by rw [habove h, readAt]⟩

/-- Settles O16: each mode reads through the range check of its own address, and immediate mode through none. -/
theorem readPathOfModes : Obligations.ReadPathOfModes := by
  rintro s ⟨mode, raw⟩
  refine ⟨?immediate, ?position, ?relative⟩ <;> rintro rfl
  case immediate => rfl
  case position => exact readAt_checkAddress_answers s .invalidAddress raw
  case relative => exact readAt_checkAddress_answers s .arithmeticConversion (s.rb + raw)

/-- Settles O17: each mode addresses through the range check of its own address, and immediate mode fails. -/
theorem writePathOfModes : Obligations.WritePathOfModes := by
  rintro s i ⟨mode, raw⟩
  refine ⟨?immediate, ?position, ?relative⟩ <;> rintro rfl
  case immediate => rfl
  case position => exact checkAddress_answers s.cfg .invalidAddress raw
  case relative => exact checkAddress_answers s.cfg .arithmeticConversion (s.rb + raw)

/-! ### Frames: what each state an instruction can answer leaves unchanged (R95, R96) -/

section Frame

variable {i : Instr} {s t : State} (h : ExecCase i s t)
include h

theorem ExecCase.cfg_eq : t.cfg = s.cfg := by
  cases h with
  | failed | stored | starved | took | output | jumped | fellThrough | based | halted => rfl

theorem ExecCase.rb_eq (hi : ∀ a, i ≠ .arb a) : t.rb = s.rb :=
  h.rb_eq_or_arb.resolve_right fun ⟨a, ha, _⟩ => hi a ha

theorem ExecCase.log_eq (hi : ∀ a, i ≠ .out a) : t.log = s.log := by
  cases h with
  | @output _ a _ => exact absurd rfl (hi a)
  | failed | stored | starved | took | jumped | fellThrough | based | halted => rfl

/-- The queue is left alone, or IN took its front (10_state.md R28). -/
theorem ExecCase.inq_eq_or_inp : t.inq = s.inq ∨ ∃ dest x, i = .inp dest ∧ s.inq = x :: t.inq := by
  cases h with
  | @took _ dest x xs _ hq => exact .inr ⟨dest, x, rfl, by simp [hq]⟩
  | failed | stored | starved | output | jumped | fellThrough | based | halted => exact .inl rfl

theorem ExecCase.inq_eq (hi : ∀ dest, i ≠ .inp dest) : t.inq = s.inq :=
  h.inq_eq_or_inp.resolve_right fun ⟨dest, _, hdest, _⟩ => hi dest hdest

/-- Without a W parameter memory and its extent are left alone (20_memory.md R45). -/
theorem ExecCase.mem_eq (hi : destParam i = none) : t.mem = s.mem ∧ t.ext = s.ext :=
  h.mem_eq_or_written.resolve_right fun ⟨dest, _, hdest, _⟩ => by simp [hi] at hdest

/-- With the W parameter `dest`, which is parameter `n`, only the word at its address can change, and none where it does
not resolve (20_memory.md R47). -/
theorem ExecCase.mem_frame {dest : Param} (hi : destParam i = some dest) (n : Nat) :
    (∀ d, resolveWriteAddress s n dest = .ok d →
      (∀ x, x ≠ d → t.readWord x = s.readWord x) ∧ (t.ext = s.ext ∨ t.ext = max s.ext (d + 1))) ∧
    (∀ k, resolveWriteAddress s n dest = .error k → (∀ x, t.readWord x = s.readWord x) ∧ t.ext = s.ext) := by
  rcases h.mem_eq_or_written with ⟨hmem, hext⟩ | ⟨dest', v, hi', hd, hmem, hext⟩
  · exact ⟨fun _ _ => ⟨fun x _ => State.readWord_congr hmem x, .inl hext⟩,
      fun _ _ => ⟨State.readWord_congr hmem, hext⟩⟩
  · obtain rfl := Option.some.inj (hi.symm.trans hi')
    have hok := resolveWriteAddress_writable n hd
    refine ⟨fun d hd => ?_, fun k hk => ?_⟩
    · obtain rfl := Except.ok.inj (hok.symm.trans hd)
      refine ⟨fun x hx => ?_, .inr hext⟩
      rw [State.readWord, hmem, Memory.read_write, if_neg hx, State.readWord]
    · cases hok.symm.trans hk

end Frame

/-- Settles O34: the four instructions have `dest` as their W parameter, and are none of ARB, IN and OUT. -/
theorem storingInstructionsFrame : Obligations.StoringInstructionsFrame := by
  intro s t a b dest i hi he
  have hcase := exec_cases he
  have hdest : destParam i = some dest := by
    fin_cases hi <;> rfl
  refine ⟨hcase.cfg_eq, hcase.rb_eq ?_, hcase.inq_eq ?_, hcase.log_eq ?_, hcase.mem_frame hdest 3⟩
  all_goals
    rintro _ rfl
    simp at hi

/-- Settles O35: IN has `dest` as its W parameter, and takes from the queue only once that has resolved. -/
theorem inputInstructionFrame : Obligations.InputInstructionFrame := by
  intro s t dest he
  have hcase := exec_cases he
  obtain ⟨hwritten, hkept⟩ := hcase.mem_frame rfl 1
  refine ⟨hcase.cfg_eq, hcase.rb_eq (by simp), hcase.log_eq (by simp), ?_, hwritten, fun k hk => ?_⟩
  · exact hcase.inq_eq_or_inp.imp_right fun ⟨_, x, _, hq⟩ => ⟨x, hq⟩
  · obtain rfl := next_inj (he.symm.trans (execInp_fails hk))
    obtain ⟨hread, hext⟩ := hkept k hk
    exact ⟨hread, hext, State.fail_inq s k⟩

/-- Settles O36: none of the five instructions has a W parameter, only ARB writes `rb` and only OUT the log. -/
theorem nonStoringInstructionsFrame : Obligations.NonStoringInstructionsFrame := by
  intro s t a target
  refine ⟨fun i hi he => ?_, fun i hi he => ?_, fun i hi he => ?_⟩
  · have hcase := exec_cases he
    have hdest : destParam i = none := by
      fin_cases hi <;> rfl
    obtain ⟨hmem, hext⟩ := hcase.mem_eq hdest
    refine ⟨hcase.cfg_eq, State.readWord_congr hmem, hext, hcase.inq_eq ?_⟩
    rintro _ rfl
    cases hdest
  · refine (exec_cases he).rb_eq ?_
    rintro _ rfl
    simp at hi
  · refine (exec_cases he).log_eq ?_
    rintro _ rfl
    simp at hi

/-! ### Totality (log 10) -/

/-- Settles O37: the step of a terminal state is the null step, and every other one has an ending to carry out. -/
theorem stepAlwaysAnswersNext : Obligations.StepAlwaysAnswersNext := by
  intro s
  cases hs : s.es.terminal with
  | true => exact ⟨s, step_terminal hs⟩
  | false =>
    obtain ⟨e, he⟩ := step_endsAlike s
    exact ⟨e.apply s, he s hs ⟨rfl, rfl, rfl, rfl⟩⟩

end Sys2Proof.Machine

/-! Where the core suspends (42_io.md): OUT, the steps that return to the host, and the input that is executed again. -/

namespace Sys2Proof.Machine

/-! ### OUT -/

/-- Settles O25: the operand resolves, and the commit logs and reports its value. -/
theorem outLogsAndReports : Obligations.OutLogsAndReports := fun _ _ ha => execOut_readable ha

/-! ### The instruction behind an execution state -/

section Suspension

variable {i : Instr} {s t : State}

/-- A step of a non-terminal state that does not end Failed has run an instruction. -/
theorem step_notFailed_ran (hs : s.es.terminal = false) (h : step s = .next t)
    (hfailed : ∀ k fip, t.es ≠ .failed k fip) : ∃ i, fetchInstr s = .ok i ∧ ExecCase i s t := by
  rcases step_cases h with ⟨hterminal, _⟩ | ⟨_, k, _, rfl⟩ | ⟨_, i, hi, he⟩
  · exact absurd (hs.symm.trans hterminal) (by decide)
  · exact absurd rfl (hfailed k s.ip)
  · exact ⟨i, hi, exec_cases he⟩

theorem ExecCase.out_of_producedOutput {v : Int} (h : ExecCase i s t) (hes : t.es = .producedOutput v) :
    ∃ a, i = .out a ∧ Readable s a := by
  cases h with
  | @output _ a ha => exact ⟨a, rfl, ha⟩
  | failed | stored | starved | took | jumped | fellThrough | based | halted => cases hes

theorem ExecCase.starved_of_awaitingMoreInput (h : ExecCase i s t) (hes : t.es = .awaitingMoreInput) :
    ∃ dest, i = .inp dest ∧ Writable s dest ∧ s.inq = [] ∧ t = s.suspend := by
  cases h with
  | @starved _ dest hd hq => exact ⟨dest, rfl, hd, hq, rfl⟩
  | failed | stored | took | output | jumped | fellThrough | based | halted => cases hes

theorem ExecCase.hlt_of_halted (h : ExecCase i s t) (hes : t.es = .halted) : i = .hlt := by
  cases h with
  | halted => rfl
  | failed | stored | starved | took | output | jumped | fellThrough | based => cases hes

theorem step_producedOutput_iff (hs : s.es.terminal = false) (h : step s = .next t) :
    (∃ v, t.es = .producedOutput v) ↔ ∃ a, fetchInstr s = .ok (.out a) ∧ Readable s a := by
  constructor
  · rintro ⟨v, hes⟩
    obtain ⟨i, hi, hcase⟩ := step_notFailed_ran hs h (by simp [hes])
    obtain ⟨a, rfl, ha⟩ := hcase.out_of_producedOutput hes
    exact ⟨a, hi, ha⟩
  · rintro ⟨a, hi, ha⟩
    obtain rfl := next_inj (h.symm.trans ((step_runs hs hi).trans (execOut_readable ha)))
    exact ⟨operandValue s a, rfl⟩

theorem step_of_starved {dest : Param} (hs : s.es.terminal = false) (hi : fetchInstr s = .ok (.inp dest))
    (hd : Writable s dest) (hq : s.inq = []) : step s = .next s.suspend :=
  calc step s = execInp dest s := step_runs hs hi
    _ = .next (takeInput (destination s dest) s) := execInp_writable hd
    _ = .next s.suspend := by rw [takeInput_empty _ hq]

/-- A step that ends AwaitingMoreInput ran an IN on an empty queue, and did nothing but suspend (42_io.md R107). -/
theorem step_awaitingMoreInput (h : step s = .next t) (hes : t.es = .awaitingMoreInput) :
    s.es.terminal = false ∧ t = s.suspend ∧
      ∃ dest, fetchInstr s = .ok (.inp dest) ∧ Writable s dest ∧ s.inq = [] := by
  cases hs : s.es.terminal with
  | true =>
    obtain rfl := next_inj ((step_terminal hs).symm.trans h)
    simp [hes] at hs
  | false =>
    obtain ⟨i, hi, hcase⟩ := step_notFailed_ran hs h (by simp [hes])
    obtain ⟨dest, rfl, hd, hq, ht⟩ := hcase.starved_of_awaitingMoreInput hes
    exact ⟨rfl, ht, dest, hi, hd, hq⟩

theorem step_awaitingMoreInput_iff (hs : s.es.terminal = false) (h : step s = .next t) :
    t.es = .awaitingMoreInput ↔ ∃ dest, fetchInstr s = .ok (.inp dest) ∧ Writable s dest ∧ s.inq = [] := by
  constructor
  · intro hes
    obtain ⟨_, _, hstarved⟩ := step_awaitingMoreInput h hes
    exact hstarved
  · rintro ⟨dest, hi, hd, hq⟩
    obtain rfl := next_inj (h.symm.trans (step_of_starved hs hi hd hq))
    rfl

theorem step_halted_iff (hs : s.es.terminal = false) (h : step s = .next t) :
    t.es = .halted ↔ fetchInstr s = .ok .hlt := by
  constructor
  · intro hes
    obtain ⟨i, hi, hcase⟩ := step_notFailed_ran hs h (by simp [hes])
    exact hcase.hlt_of_halted hes ▸ hi
  · intro hi
    obtain rfl := next_inj (h.symm.trans ((step_runs hs hi).trans (execHlt_eq s)))
    rfl

/-! ### Where a run returns -/

theorem RunLoop.es_ne_continuing (h : RunLoop s t) : t.es ≠ .continuing := by
  induction h with
  | stop _ hes => exact hes
  | again _ _ _ ih => exact ih

theorem RunsTo.es_ne_continuing (h : RunsTo s t) : t.es ≠ .continuing := by
  rcases h with ⟨hterminal, rfl⟩ | ⟨_, hloop⟩
  · intro hes
    simp [hes] at hterminal
  · exact hloop.es_ne_continuing

end Suspension

/-- Settles O32: each execution state but Continuing and Failed is the answer of one instruction, and a run goes on
exactly while the state is Continuing. -/
theorem suspensionPointsAreExact : Obligations.SuspensionPointsAreExact := by
  refine ⟨fun s t hs h => ⟨step_producedOutput_iff hs h, step_awaitingMoreInput_iff hs h, step_halted_iff hs h⟩,
    fun s t h => ?_⟩
  cases hes : t.es with
  | continuing => exact absurd hes h.es_ne_continuing
  | awaitingMoreInput => exact .inr (.inl rfl)
  | producedOutput v => exact .inl ⟨v, rfl⟩
  | halted => exact .inr (.inr (.inl rfl))
  | failed k fip => exact .inr (.inr (.inr ⟨k, fip, rfl⟩))

/-! ### The starved input is executed again (42_io.md R110) -/

theorem step_suspend {s : State} (hs : s.es.terminal = false) : step s.suspend = step s :=
  oldExecutionStateHasNoEffect s .awaitingMoreInput hs rfl

/-- A step that answers its own non-continuing state ends a run at once. -/
theorem runFor_one_of_step_self {t : State} (h : step t = .next t) (hes : t.es ≠ .continuing) :
    runFor 1 t = some t := by
  have hstepped : stepped t = t := by simp only [stepped, h]
  unfold runFor runLoop
  split
  · rfl
  · rw [hstepped, if_neg hes]

/-- IN with one value pushed to its empty queue stores that value and leaves the queue empty again. -/
theorem step_inp_pushed {s : State} {dest : Param} (v : Int) (hs : s.es.terminal = false)
    (hi : fetchInstr s = .ok (.inp dest)) (hd : Writable s dest) (hq : s.inq = []) :
    step { s with inq := s.inq ++ [v] } = .next { s with
      mem := s.mem.write (destination s dest) v, ext := max s.ext (destination s dest + 1),
      ip := s.ip + 2, es := .continuing } := by
  have agree : AgreeOnRead s { s with inq := s.inq ++ [v] } := ⟨rfl, rfl, rfl, rfl⟩
  calc step { s with inq := s.inq ++ [v] }
    _ = exec (.inp dest) { s with inq := s.inq ++ [v] } := step_runs hs (agree.fetchInstr.trans hi)
    _ = .next { s with
          mem := s.mem.write (destination s dest) v, ext := max s.ext (destination s dest + 1),
          inq := [], ip := s.ip + 2, es := .continuing } :=
      inTakesOldestInput { s with inq := s.inq ++ [v] } dest v [] hd (by simp [hq])
    _ = _ := by rw [← hq]

/-- Settles O33: the starved step only suspended, and the step after a suspension is the step before it, with or without
a pushed value. -/
theorem starvedInputRetries : Obligations.StarvedInputRetries := by
  intro s t h hes
  obtain ⟨hs, rfl, dest, hi, hd, hq⟩ := step_awaitingMoreInput h hes
  have again : step s.suspend = .next s.suspend := (step_suspend hs).trans h
  refine ⟨rfl, again, runFor_one_of_step_self again (by simp), fun v u hu => ?_⟩
  obtain rfl := pushInput_appends hu
  have hpushed : step { s.suspend with inq := s.inq ++ [v] } = step { s with inq := s.inq ++ [v] } :=
    step_suspend (s := { s with inq := s.inq ++ [v] }) hs
  exact ⟨hpushed, dest, hi, hpushed.trans (step_inp_pushed v hs hi hd hq)⟩

end Sys2Proof.Machine

/-! What LT and EQ write (44_compare.md R119, R120). -/

namespace Sys2Proof.Machine

theorem truthWord_decide (p : Prop) [Decidable p] : truthWord (decide p) = if p then 1 else 0 := by
  simp only [truthWord, decide_eq_true_eq]

/-- What LT and EQ answer once their operands resolve, `holds` being the comparison of the old operand values
(40_execution_cycle.md R96). -/
theorem storeTruth_completes (holds : Int → Int → Prop) [∀ x y, Decidable (holds x y)] {s : State} {a b dest : Param}
    (ha : Readable s a) (hb : Readable s b) (hd : Writable s dest) :
    storeResult (fun x y => .ok (truthWord (decide (holds x y)))) a b dest s =
      .next ((s.writeWord (destination s dest)
        (if holds (operandValue s a) (operandValue s b) then 1 else 0)).retire (s.ip + 4) .continuing) :=
  storeResult_completes ha hb hd (congrArg Except.ok (truthWord_decide _))

/-- Settles O21: the words are those of three parameters, and the comparison is `<`. -/
theorem ltWritesComparison : Obligations.LtWritesComparison :=
  fun _ _ _ _ => ⟨encode_of_three_params rfl, storeTruth_completes (· < ·)⟩

/-- Settles O22: the words are those of three parameters, and the comparison is `=`. -/
theorem eqWritesComparison : Obligations.EqWritesComparison :=
  fun _ _ _ _ => ⟨encode_of_three_params rfl, storeTruth_completes (· = ·)⟩

end Sys2Proof.Machine

/-! The words that decode under STRICT, one for each instruction and 136 in all, and what leftover digits change
(30_encoding.md R75, R79, R84). -/

namespace Sys2Proof

/-! ### One word for each opcode and modes -/

theorem decode_ok_iff {strict : Bool} {ws : List Int} {i : Instr} {rest : List Int} :
    decode strict ws = .ok (i, rest) ↔
      ∃ h, decodeHead strict (ws.headD 0) = .ok h ∧ i = h.instr (ws.tail.take h.nparams) ∧
        rest = ws.drop (h.nparams + 1) := by
  unfold decode
  cases decodeHead strict (ws.headD 0) with
  | error e => simp
  | ok h => simp [eq_comm]

theorem decodeHead_modes_length {strict : Bool} {w : Int} {h : Head} (hok : decodeHead strict w = .ok h) :
    h.modes.length = h.nparams := by
  obtain ⟨_, _, hmodes, _⟩ := decodeHead_ok hok
  exact decodeModes_length hmodes

/-- A number of at most `k` digits is its digits. -/
theorem eq_of_digit_eq {k m n : Nat} (hm : m < 10 ^ k) (hn : n < 10 ^ k) (h : ∀ j, j < k → digit m j = digit n j) :
    m = n := by
  induction k generalizing m n with
  | zero => omega
  | succ k ih =>
    have hlow : m % 10 = n % 10 := by simpa [digit] using h 0 (by omega)
    have hhigh : m / 10 = n / 10 := ih (by omega) (by omega) fun j hj => by
      rw [← digit_succ, ← digit_succ]
      exact h (j + 1) (by omega)
    omega

/-- Under STRICT an accepted word is a number with no digit above its modes (R75). -/
theorem decodeHead_strict_ok {w : Int} {h : Head} (hok : decodeHead true w = .ok h) :
    ∃ n : Nat, w = n ∧ n < 10 ^ (h.op.nparams + 2) ∧ n % 100 = h.op.code ∧
      decodeModes n 1 h.op.nparams = .ok h.modes := by
  obtain ⟨h0, hcode, hmodes, htop⟩ := decodeHead_ok hok
  have hlt := (Nat.div_eq_zero_iff_lt (by positivity)).mp (htop rfl)
  exact ⟨w.toNat, (Int.toNat_of_nonneg h0).symm, hlt, hcode, hmodes⟩

/-- Under STRICT a word is fixed by its opcode and its modes (R79). -/
theorem decodeHead_strict_injective {v w : Int} {h : Head} (hv : decodeHead true v = .ok h)
    (hw : decodeHead true w = .ok h) : v = w := by
  obtain ⟨m, rfl, hm, hmcode, hmmodes⟩ := decodeHead_strict_ok hv
  obtain ⟨n, rfl, hn, hncode, hnmodes⟩ := decodeHead_strict_ok hw
  obtain ⟨hlen, hmdigit⟩ := (decodeModes_ok_iff _ _ _ _).mp hmmodes
  obtain ⟨_, hndigit⟩ := (decodeModes_ok_iff _ _ _ _).mp hnmodes
  refine congrArg Nat.cast (eq_of_digit_eq hm hn fun j hj => ?_)
  match j with
  | 0 => simp only [digit, pow_zero]; omega
  | 1 => simp only [digit, pow_one]; omega
  | j + 2 => rw [show j + 2 = 1 + j + 1 by omega, hmdigit j (by omega), hndigit j (by omega)]

/-! ### A head and its raw values are read back from the instruction -/

theorem Head.instr_modes {h : Head} (hlen : h.modes.length = h.nparams) (raws : List Int) :
    (h.instr raws).params.map Param.mode = h.modes := by
  rw [Head.instr_params, ← hlen]
  exact List.ext_getElem (by simp) (by simp +contextual)

theorem Head.instr_raws {h : Head} {raws : List Int} (hlen : raws.length = h.nparams) :
    (h.instr raws).params.map Param.raw = raws := by
  rw [Head.instr_params, ← hlen]
  exact List.ext_getElem (by simp) (by simp +contextual)

theorem decodeHead_encodeHead_instr {h : Head} (hlen : h.modes.length = h.nparams) (raws : List Int) :
    decodeHead true (encodeHead (h.instr raws)) = .ok h := by
  rw [decodeHead_encodeHead, Head.instr_opcode, Head.instr_modes hlen]

/-- Under STRICT the word that decodes is the encoder's. -/
theorem decodeHead_strict_eq {w : Int} {h : Head} (hok : decodeHead true w = .ok h) (raws : List Int) :
    w = encodeHead (h.instr raws) :=
  decodeHead_strict_injective hok (decodeHead_encodeHead_instr (decodeHead_modes_length hok) raws)

/-- Settles O3: the first word is the encoder's, and the words after it are the raw values and the rest. -/
theorem strictDecodingHasOneEncoding : Obligations.StrictDecodingHasOneEncoding := by
  intro ws i rest hd hwidth
  obtain ⟨h, hhead, rfl, rfl⟩ := decode_ok_iff.mp hd
  rw [Instr.width_eq, Head.instr_opcode, ← Head.nparams] at hwidth
  cases ws with
  | nil => simp at hwidth
  | cons w tl =>
    have hraws : (tl.take h.nparams).length = h.nparams := List.length_take_of_le (by simpa using hwidth)
    calc w :: tl = w :: (tl.take h.nparams ++ tl.drop h.nparams) := by rw [List.take_append_drop]
      _ = encode (h.instr (tl.take h.nparams)) ++ tl.drop h.nparams := by
        rw [encode, Head.instr_raws hraws, ← decodeHead_strict_eq hhead, List.cons_append, List.headD_cons]

/-! ### Counting the words (R79) -/

def allModes : List Mode := [.position, .immediate, .relative]

/-- The modes of `n` parameters, in every combination. -/
def modeLists : Nat → List (List Mode)
  | 0 => [[]]
  | n + 1 => allModes.flatMap fun m => (modeLists n).map (m :: ·)

def allOpcodes : List Opcode := [.add, .mul, .inp, .out, .jt, .jf, .lt, .eq, .arb, .hlt]

/-- Every opcode with every combination of modes. -/
def allHeads : List Head := allOpcodes.flatMap fun op => (modeLists op.nparams).map (Head.mk op)

theorem mem_allModes (m : Mode) : m ∈ allModes := by cases m <;> decide

theorem mem_allOpcodes (op : Opcode) : op ∈ allOpcodes := by cases op <;> decide

theorem mem_modeLists {n : Nat} {ms : List Mode} : ms ∈ modeLists n ↔ ms.length = n := by
  induction n generalizing ms with
  | zero => simp [modeLists]
  | succ n ih => cases ms <;> simp [modeLists, mem_allModes, ih]

theorem mem_allHeads {h : Head} : h ∈ allHeads ↔ h.modes.length = h.nparams := by
  obtain ⟨op, ms⟩ := h
  simp [allHeads, mem_allOpcodes, mem_modeLists, Head.nparams]

/-- Lists made by putting each element of one list before each element of another do not repeat. -/
theorem nodup_flatMap_map {α β γ : Type} {f : α → β → γ} (hf : ∀ a a' b b', f a b = f a' b' → a = a' ∧ b = b')
    {l : List α} {m : α → List β} (hl : l.Nodup) (hm : ∀ a, (m a).Nodup) :
    (l.flatMap fun a => (m a).map (f a)).Nodup := by
  refine List.nodup_flatMap.mpr ⟨fun a _ => (hm a).map fun b b' h => (hf a a b b' h).2, hl.imp fun hne => ?_⟩
  intro c hc hc'
  obtain ⟨b, _, rfl⟩ := List.mem_map.mp hc
  obtain ⟨b', _, h⟩ := List.mem_map.mp hc'
  exact hne (hf _ _ _ _ h).1.symm

theorem modeLists_nodup (n : Nat) : (modeLists n).Nodup := by
  induction n with
  | zero => exact List.nodup_singleton _
  | succ n ih => exact nodup_flatMap_map (f := List.cons) (by simp) (by decide) fun _ => ih

theorem allHeads_nodup : allHeads.Nodup :=
  nodup_flatMap_map (f := Head.mk) (by simp) (by decide) fun op => modeLists_nodup op.nparams

/-- The instruction words whose opcode and modes satisfy `P`. -/
def strictWords (P : Head → Prop) [DecidablePred P] : List Int :=
  (allHeads.filter P).map fun h => (encodeHead (h.instr []) : Int)

section StrictWords

variable (P : Head → Prop) [DecidablePred P]

theorem mem_strictWords {w : Int} : w ∈ strictWords P ↔ ∃ h, decodeHead true w = .ok h ∧ P h := by
  simp only [strictWords, List.mem_map, List.mem_filter, decide_eq_true_eq, mem_allHeads]
  constructor
  · rintro ⟨h, ⟨hlen, hP⟩, rfl⟩
    exact ⟨h, decodeHead_encodeHead_instr hlen [], hP⟩
  · rintro ⟨h, hok, hP⟩
    exact ⟨h, ⟨decodeHead_modes_length hok, hP⟩, (decodeHead_strict_eq hok []).symm⟩

/-- Two heads have two words, since the decoder reads each head back from its word. -/
theorem strictWords_nodup : (strictWords P).Nodup := by
  refine (allHeads_nodup.filter _).map_on fun h hh h' hh' heq => ?_
  have hlen := mem_allHeads.mp (List.mem_of_mem_filter hh)
  have hlen' := mem_allHeads.mp (List.mem_of_mem_filter hh')
  have hok := decodeHead_encodeHead_instr hlen []
  rw [heq, decodeHead_encodeHead_instr hlen' []] at hok
  exact (Except.ok.inj hok).symm

theorem strictWords_length : (strictWords P).length = (allHeads.filter P).length := List.length_map _

end StrictWords

/-- Settles O4: the words are those of the 136 heads, of which 99 have no immediate parameter in a W role. -/
theorem strictWordsNumber136 : Obligations.StrictWordsNumber136 := by
  refine ⟨⟨strictWords fun _ => True, strictWords_nodup _, (strictWords_length _).trans rfl, fun w => ?_⟩,
    ⟨strictWords fun h => ∀ p ∈ Machine.destParam (h.instr []), p.mode ≠ .immediate, strictWords_nodup _,
      (strictWords_length _).trans rfl, fun w => mem_strictWords _⟩⟩
  simpa using mem_strictWords (fun _ => True) (w := w)

/-! ### Leftover digits (R75) -/

/-- Phases 3 and 4 on a word whose opcode is recognised. -/
theorem decodeHead_recognised (strict : Bool) {w : Nat} {op : Opcode} (hop : w % 100 = op.code) :
    decodeHead strict w = (decodeModes w 1 op.nparams).bind fun ms =>
      if strict = true ∧ w / 10 ^ (op.nparams + 2) ≠ 0 then .error (.malformedInstruction w) else .ok ⟨op, ms⟩ := by
  have h0 : ¬(w : Int) < 0 := by omega
  simp only [decodeHead, if_neg h0, Int.toNat_natCast, hop, Opcode.ofCode_code]
  cases decodeModes w 1 op.nparams <;> rfl

theorem digit_mod_pow {w k m : Nat} (h : k < m) : digit (w % 10 ^ m) k = digit w k := by
  obtain ⟨n, rfl⟩ : ∃ n, m = k + 1 + n := ⟨m - (k + 1), by omega⟩
  rw [digit, digit, show k + 1 + n = k + (n + 1) by omega, pow_add, Nat.mod_mul_right_div_self,
    Nat.mod_mod_of_dvd _ (dvd_pow_self 10 (by omega))]

/-- Phase 3 looks at the digits of its parameters only (R89). -/
theorem decodeModes_congr {v w i n : Nat} (h : ∀ j, j < n → digit v (i + j + 1) = digit w (i + j + 1)) :
    decodeModes v i n = decodeModes w i n := by
  induction n generalizing i with
  | zero => rfl
  | succ n ih =>
    have hfirst : digit v (i + 1) = digit w (i + 1) := h 0 (by omega)
    have hrest : decodeModes v (i + 1) n = decodeModes w (i + 1) n := ih fun j hj => by
      rw [show i + 1 + j = i + (j + 1) by omega]
      exact h (j + 1) (by omega)
    simp only [decodeModes, hfirst, hrest]

/-- Settles O6: without its leftover digits a word has the same opcode and the same mode digits. -/
theorem permissiveIgnoresLeftoverDigits : Obligations.PermissiveIgnoresLeftoverDigits := by
  intro op w hop
  have hop' : w % 10 ^ (op.nparams + 2) % 100 = op.code := by
    rw [Nat.mod_mod_of_dvd _ (show 100 ∣ 10 ^ (op.nparams + 2) from pow_dvd_pow 10 (Nat.le_add_left 2 _)), hop]
  have hmodes : decodeModes (w % 10 ^ (op.nparams + 2)) 1 op.nparams = decodeModes w 1 op.nparams :=
    decodeModes_congr fun j hj => digit_mod_pow (by omega)
  have htop : w % 10 ^ (op.nparams + 2) / 10 ^ (op.nparams + 2) = 0 :=
    Nat.div_eq_of_lt (Nat.mod_lt _ (by positivity))
  rw [decodeHead_recognised _ hop, decodeHead_recognised _ hop', hmodes, htop]
  simp

end Sys2Proof

/-! Phases 0 to 5 of a step: the terminal check, the fetch, the decoder's rejections, and the instruction that is run
(40_execution_cycle.md R86 to R91). -/

namespace Sys2Proof

/-! ### What phases 3 and 4 answer -/

/-- Phase 3 rejects at the first digit that is no mode, and at no other (30_encoding.md R73). -/
theorem decodeModes_of_first_illegal {w n j : Nat} (hj : j < n) (hbad : 2 < digit w (j + 2))
    (hgood : ∀ l, l < j → digit w (l + 2) ≤ 2) :
    decodeModes w 1 n = .error (.invalidMode (j + 1) (digit w (j + 2))) := by
  have hplace (l : Nat) : 1 + l + 1 = l + 2 := by omega
  cases hm : decodeModes w 1 n with
  | ok ms =>
    obtain ⟨rfl, hdigit⟩ := (decodeModes_ok_iff _ _ _ _).mp hm
    have hmode := hdigit j hj
    have hle := ms[j].digit_le
    rw [hplace] at hmode
    omega
  | error e =>
    obtain ⟨j', _, hbad', hgood', rfl⟩ := decodeModes_error hm
    simp only [hplace] at hbad' hgood' ⊢
    obtain rfl : j' = j := by
      rcases Nat.lt_trichotomy j' j with hlt | heq | hlt
      · exact absurd (hgood j' hlt) (by omega)
      · exact heq
      · exact absurd (hgood' j hlt) (by omega)
    rw [Nat.add_comm 1]

/-- Phase 3 accepts digits that are all modes. -/
theorem decodeModes_of_legal {w n : Nat} (h : ∀ j, j < n → digit w (j + 2) ≤ 2) : ∃ ms, decodeModes w 1 n = .ok ms := by
  cases hm : decodeModes w 1 n with
  | ok ms => exact ⟨ms, rfl⟩
  | error e =>
    obtain ⟨j, hj, hbad, _, _⟩ := decodeModes_error hm
    rw [show 1 + j + 1 = j + 2 by omega] at hbad
    exact absurd (h j hj) (by omega)

theorem decodeHead_of_first_illegal (strict : Bool) {w j : Nat} {op : Opcode} (hop : w % 100 = op.code)
    (hj : j < op.nparams) (hbad : 2 < digit w (j + 2)) (hgood : ∀ l, l < j → digit w (l + 2) ≤ 2) :
    decodeHead strict w = .error (.invalidMode (j + 1) (digit w (j + 2))) := by
  rw [decodeHead_recognised strict hop, decodeModes_of_first_illegal hj hbad hgood]
  rfl

theorem decodeHead_of_leftover {w : Nat} {op : Opcode} (hop : w % 100 = op.code)
    (hmodes : ∀ j, j < op.nparams → digit w (j + 2) ≤ 2) (htop : w / 10 ^ (op.nparams + 2) ≠ 0) :
    decodeHead true w = .error (.malformedInstruction w) := by
  obtain ⟨ms, hms⟩ := decodeModes_of_legal hmodes
  rw [decodeHead_recognised true hop, hms]
  exact if_pos ⟨rfl, htop⟩

end Sys2Proof

namespace Sys2Proof.Machine

/-! ### Phases 0 to 4: the failures -/

/-- Settles O7: both execution states are terminal. -/
theorem terminalStepChangesNothing : Obligations.TerminalStepChangesNothing := by
  rintro s (hes | ⟨k, fip, hes⟩)
  · exact step_terminal (by simp [hes])
  · exact step_terminal (by simp [hes])

theorem fetchInstr_above {s : State} (h : s.cfg.addrMax < s.ip) : fetchInstr s = .error (.addressOutOfRange s.ip) := by
  simp only [fetchInstr, fetchWord_above h]

/-- Settles O9: the fetch of the instruction word fails. -/
theorem fetchAboveAddrMaxFails : Obligations.FetchAboveAddrMaxFails :=
  fun _ hs hip => step_fetch_fails hs (fetchInstr_above hip)

/-- Settles O11: the decoder rejects the first digit that is no mode. -/
theorem firstIllegalModeDigitFails : Obligations.FirstIllegalModeDigitFails := by
  intro s w op j hs hip hw hop hj hbad hgood
  exact step_rejects hs hip (hw ▸ decodeHead_of_first_illegal _ hop hj hbad hgood)

/-- Settles O12: the modes are legal, so the decoder goes on to the leftover digits and rejects them. -/
theorem leftoverDigitsFailUnderStrict : Obligations.LeftoverDigitsFailUnderStrict := by
  intro s w op hs hip hw hop hmodes hstrict htop
  exact step_rejects hs hip (by rw [hw, hstrict, decodeHead_of_leftover hop hmodes htop])

/-! ### Phase 5: the raw parameters -/

/-- A raw fetch that meets the end of memory fails at the first address above it (R91). -/
theorem fetchRaws_of_above {s : State} {a n j : Nat} (hj : j < n) (ha : a + j = s.cfg.addrMax + 1) :
    fetchRaws s a n = .error (.addressOutOfRange (a + j)) := by
  cases hr : fetchRaws s a n with
  | ok raws =>
    obtain ⟨hall, _⟩ := (fetchRaws_ok_iff s a n raws).mp hr
    have := hall j hj
    omega
  | error k =>
    obtain ⟨j', _, hbad, hgood, rfl⟩ := fetchRaws_error hr
    obtain rfl : j' = j := by
      by_contra hne
      have := hgood j
      omega
    rfl

theorem fetchInstr_raws_fail {s : State} {h : Head} {k : Failure} (hip : s.ip ≤ s.cfg.addrMax)
    (hd : decodeHead s.cfg.strict (s.readWord s.ip) = .ok h) (hr : fetchRaws s (s.ip + 1) h.nparams = .error k) :
    fetchInstr s = .error k := by
  simp only [fetchInstr, (fetchWord_ok_iff s s.ip _).mpr ⟨hip, rfl⟩, hd, hr]

/-- Settles O13: the word decodes, and parameter `j + 1` is the first whose raw value lies above ADDR_MAX. -/
theorem rawFetchAboveAddrMaxFails : Obligations.RawFetchAboveAddrMaxFails := by
  intro s h j hs hd hj hip
  have hr : fetchRaws s (s.ip + 1) h.nparams = .error (.addressOutOfRange (s.ip + 1 + j)) :=
    fetchRaws_of_above hj (by omega)
  rw [show s.ip + (j + 1) = s.ip + 1 + j by omega]
  exact step_fetch_fails hs (fetchInstr_raws_fail (by omega) hd hr)

/-! ### The instruction that is run -/

/-- The head at `ip` with the raw values that follow it, where memory has them all. -/
theorem fetchInstr_of_head {s : State} {h : Head} {raws : List Int}
    (hd : decodeHead s.cfg.strict (s.readWord s.ip) = .ok h) (hin : s.ip + h.nparams ≤ s.cfg.addrMax)
    (hraws : raws = (List.range h.nparams).map fun j => s.readWord (s.ip + 1 + j)) :
    fetchInstr s = .ok (h.instr raws) :=
  (fetchInstr_ok_iff s _).mpr ⟨h, hd, fun _ _ => by omega, by rw [hraws]⟩

/-- Settles O14: the decoder over the four words at `ip` takes as many raw values as the fetch. -/
theorem stepRunsDecodedInstruction : Obligations.StepRunsDecodedInstruction := by
  intro s i rest hs hd hin
  obtain ⟨h, hhead, rfl, _⟩ := decode_ok_iff.mp hd
  rw [Instr.width_eq, Head.instr_opcode, ← Head.nparams] at hin
  have hle : h.nparams ≤ 3 := h.op.nparams_le
  have htail : [s.readWord (s.ip + 1), s.readWord (s.ip + 2), s.readWord (s.ip + 3)] =
      (List.range 3).map fun j => s.readWord (s.ip + 1 + j) := rfl
  refine step_runs hs (fetchInstr_of_head hhead (by omega) ?_)
  rw [List.tail_cons, htail, ← List.map_take, List.take_range, Nat.min_eq_left hle]

/-- Settles O15: the first word of the encoding decodes to the head of `i`, and the others are its raw values. -/
theorem encodedInstructionRuns : Obligations.EncodedInstructionRuns := by
  intro s i hs hin henc
  have hwidth := encode_length i
  rw [Instr.width_eq] at hwidth hin
  have hhead : decodeHead s.cfg.strict (s.readWord s.ip) = .ok ⟨i.opcode, i.params.map Param.mode⟩ := by
    have h0 : s.readWord s.ip = encodeHead i := henc 0 (by omega)
    rw [h0, decodeHead_encodeHead]
  have hraws : i.params.map Param.raw = (List.range i.opcode.nparams).map fun j => s.readWord (s.ip + 1 + j) := by
    refine List.ext_getElem (by simp [Instr.params_length]) fun j hj _ => ?_
    have hlt : j + 1 < (encode i).length := Nat.succ_lt_succ hj
    have hword : s.readWord (s.ip + 1 + j) = (encode i)[j + 1] := by
      rw [show s.ip + 1 + j = s.ip + (j + 1) by omega, henc (j + 1) hlt]
    simpa [encode] using hword.symm
  have hfetch := fetchInstr_of_head hhead (Nat.le_of_succ_le_succ hin) hraws
  rw [Head.instr_of_params] at hfetch
  exact step_runs hs hfetch

end Sys2Proof.Machine

/-! What each instruction answers: which parameter's failure is reported, the jumps, ARB, HLT and the starved IN, and what
a failure or an output changes (40_execution_cycle.md R94, R96; 60_exceptions.md R126, R131). -/

namespace Sys2Proof.Machine

/-! ### The first failing parameter (R94, R131) -/

section FirstFailing

variable {s : State} {a b dest : Param} {k : Failure}

/-- ADD, MUL, LT and EQ, whatever they compute. -/
theorem storeResult_first_failing (f : Int → Int → Except Failure Int) :
    (resolveRead s a = .error k → storeResult f a b dest s = .next (s.fail k)) ∧
    (Readable s a → resolveRead s b = .error k → storeResult f a b dest s = .next (s.fail k)) ∧
    (Readable s a → Readable s b → resolveWriteAddress s 3 dest = .error k →
      storeResult f a b dest s = .next (s.fail k)) :=
  ⟨fun h => storeResult_fails (.first h), fun ha h => storeResult_fails (.second ha h),
    fun ha hb h => storeResult_fails (.target ha hb h)⟩

/-- JT and JF, whenever they are taken. -/
theorem jumpWhen_first_failing (taken : Int → Bool) :
    (resolveRead s a = .error k → jumpWhen taken a b s = .next (s.fail k)) ∧
    (Readable s a → resolveRead s b = .error k → jumpWhen taken a b s = .next (s.fail k)) :=
  ⟨fun h => jumpWhen_fails (.first h), fun ha h => jumpWhen_fails (.second ha h)⟩

end FirstFailing

/-- Settles O18: the parameters are resolved in order, one lemma for each format. -/
theorem firstFailingParameterIsReported : Obligations.FirstFailingParameterIsReported := by
  intro s a b dest k
  refine ⟨fun i hi => ?store, fun i hi => ?jump, fun i hi => ?single, execInp_fails⟩
  case store => fin_cases hi <;> exact storeResult_first_failing _
  case jump => fin_cases hi <;> exact jumpWhen_first_failing _
  case single =>
    fin_cases hi
    · exact execOut_fails
    · exact execArb_fails_read

/-! ### JT and JF -/

/-- What a jump answers once its operands resolve, `taken` being its condition (43_jumps.md R117, R118). -/
theorem jumpWhen_answers (taken : Int → Prop) [DecidablePred taken] {s : State} {a target : Param}
    (ha : Readable s a) (ht : Readable s target) :
    (taken (operandValue s a) → 0 ≤ operandValue s target →
      jumpWhen (fun v => decide (taken v)) a target s =
        .next (s.retire (operandValue s target).toNat .continuing)) ∧
    (taken (operandValue s a) → operandValue s target < 0 →
      jumpWhen (fun v => decide (taken v)) a target s =
        .next (s.fail (.invalidAddress (operandValue s target)))) ∧
    (¬taken (operandValue s a) →
      jumpWhen (fun v => decide (taken v)) a target s = .next (s.retire (s.ip + 3) .continuing)) := by
  refine ⟨fun hj hn => ?_, fun hj hn => ?_, fun hj => ?_⟩
  · exact jumpWhen_taken ha ht (decide_eq_true hj) hn
  · exact jumpWhen_fails (.negative ha ht (decide_eq_true hj) hn rfl)
  · exact jumpWhen_notTaken ha ht (decide_eq_false hj)

/-- Settles O26: the condition is that the operand is not 0. -/
theorem jtJumpsWhenNonzero : Obligations.JtJumpsWhenNonzero := by
  intro s a target ha ht
  obtain ⟨hjump, hnegative, hfall⟩ := jumpWhen_answers (· ≠ 0) ha ht
  exact ⟨hjump, hnegative, fun h0 => hfall (not_not_intro h0)⟩

/-- Settles O27: the condition is that the operand is 0. -/
theorem jfJumpsWhenZero : Obligations.JfJumpsWhenZero :=
  fun _ _ _ ha ht => jumpWhen_answers (· = 0) ha ht

/-! ### ARB, HLT and the starved IN -/

/-- Settles O28: the operand resolves, and the sum with the old `rb` is a word, is reduced, or overflows. -/
theorem arbAdjustsRelativeBase : Obligations.ArbAdjustsRelativeBase := by
  rintro s a r ha rfl
  refine ⟨fun h => ?_, fun h ho => ?_, fun h ho => ?_⟩
  · exact execArb_completes ha (arith_of_inW h)
  · exact execArb_completes ha (arith_of_wrap h ho)
  · exact execArb_fails_result ha (arith_of_fault h ho)

/-- Settles O29: HLT has no parameter that could fail, so its commit is all it does. -/
theorem hltHalts : Obligations.HltHalts := execHlt_eq

/-- Settles O24: the destination resolves, and the queue has no front to take. -/
theorem inSuspendsOnEmptyQueue : Obligations.InSuspendsOnEmptyQueue := by
  intro s dest hd hq
  calc exec (.inp dest) s = .next (takeInput (destination s dest) s) := execInp_writable hd
    _ = .next s.suspend := by rw [takeInput_empty _ hq]

/-! ### The reduced word -/

/-- Two words that differ by a multiple of 2^W are equal. -/
theorem eq_of_inW_of_dvd_sub {w : Nat} (hw : 1 ≤ w) {u v : Int} (hu : InW w u) (hv : InW w v)
    (h : ((2 ^ w : Nat) : Int) ∣ u - v) : u = v := by
  obtain ⟨hu1, hu2⟩ := hu
  obtain ⟨hv1, hv2⟩ := hv
  have hpow := two_pow_eq hw
  unfold wordMin wordMax at *
  refine Int.sub_eq_zero.mp (Int.eq_zero_of_abs_lt_dvd h (abs_lt.mpr ⟨?_, ?_⟩)) <;> omega

theorem dvd_wrapW_sub (c : Config) (v : Int) : ((2 ^ c.w : Nat) : Int) ∣ wrapW c v - v :=
  Int.ModEq.dvd (Int.bmod_emod (x := v)).symm

/-- Settles O30: the reduced value is a congruent word, and two congruent words are equal. -/
theorem wrapIsTheCongruentWord : Obligations.WrapIsTheCongruentWord := by
  intro c v hc
  refine ⟨wrapW_inW hc v, dvd_wrapW_sub c v, fun u hu hdvd => ?_⟩
  have h : ((2 ^ c.w : Nat) : Int) ∣ u - wrapW c v := by
    simpa using dvd_sub hdvd (dvd_wrapW_sub c v)
  exact eq_of_inW_of_dvd_sub (le_of_lt hc) hu (wrapW_inW hc v) h

/-! ### What a failed step and an output changed -/

theorem State.eq_with_es_of_eq {s : State} {e : ExecState} (h : s.es = e) : s = { s with es := e } := by
  subst h
  rfl

theorem ExecCase.fail_of_failed {i : Instr} {s t : State} {k : Failure} {fip : Nat} (h : ExecCase i s t)
    (hes : t.es = .failed k fip) : ∃ k', t = s.fail k' := by
  cases h with
  | failed k' => exact ⟨k', rfl⟩
  | stored | starved | took | output | jumped | fellThrough | based | halted => cases hes

/-- A step that ends Failed began so, or entered the failure from `s` (60_exceptions.md R127). -/
theorem step_failed {s t : State} {k : Failure} {fip : Nat} (h : step s = .next t) (hes : t.es = .failed k fip) :
    (s.es.terminal = true ∧ t = s) ∨ ∃ k', t = s.fail k' := by
  rcases step_cases h with hterminal | ⟨_, k', _, ht⟩ | ⟨_, i, _, he⟩
  · exact .inl hterminal
  · exact .inr ⟨k', ht⟩
  · exact .inr ((exec_cases he).fail_of_failed hes)

/-- Settles O31: failure entry writes `es` with the ip of `s`, and a step of a Failed state writes nothing. -/
theorem failureChangesOnlyExecutionState : Obligations.FailureChangesOnlyExecutionState := by
  intro s t k fip h hes
  rcases step_failed h hes with ⟨hterminal, rfl⟩ | ⟨k', rfl⟩
  · exact ⟨State.eq_with_es_of_eq hes, fun hs => absurd (hs.symm.trans hterminal) (by decide)⟩
  · obtain ⟨rfl, rfl⟩ := ExecState.failed.inj hes
    exact ⟨rfl, fun _ => rfl⟩

/-- Settles O41: the step ran an instruction, and only OUT's answer has another log. -/
theorem onlyOutWritesLog : Obligations.OnlyOutWritesLog := by
  intro s t h hne
  obtain ⟨i, hi, hcase⟩ := step_changed_ran State.log State.fail_log h hne
  cases hcase with
  | @output _ a _ => exact ⟨a, operandValue s a, hi, rfl, rfl⟩
  | failed | stored | starved | took | jumped | fellThrough | based | halted => exact absurd rfl hne

/-- The log decides nothing but the log. -/
theorem Ending.apply_log_prepend (e : Ending) (s : State) (l : List Int) :
    e.apply { s with log := l ++ s.log } = { e.apply s with log := l ++ (e.apply s).log } := by
  cases e with
  | output v => simp [Ending.apply, State.appendLog, State.retire]
  | input d =>
    obtain ⟨cfg, mem, ext, ip, rb, inq, log, es⟩ := s
    cases inq <;> rfl
  | fail | store | goto | base | halt => rfl

/-- Settles O49: the step ends alike whatever the log, and its ending keeps the older outputs in front. -/
theorem logIsNeverRead : Obligations.LogIsNeverRead := by
  intro s t l h
  cases hs : s.es.terminal with
  | true =>
    obtain rfl := next_inj ((step_terminal hs).symm.trans h)
    exact step_terminal hs
  | false =>
    obtain ⟨e, he⟩ := step_endsAlike s
    obtain rfl := next_inj ((he s hs ⟨rfl, rfl, rfl, rfl⟩).symm.trans h)
    exact e.apply_log_prepend s l ▸ he { s with log := l ++ s.log } hs ⟨rfl, rfl, rfl, rfl⟩

end Sys2Proof.Machine

/-! The host's transactions (10_state.md R37 to R44): what they answer, that they keep the invariant, and that `run` under
fuel is `run` (40_execution_cycle.md R99 to R101). -/

namespace Sys2Proof.Machine

/-! ### Construction (R38, R44) -/

theorem construct_of_accepted {c : Config} {image inputs : List Int} (himage : ∀ v ∈ image, InW c.w v)
    (hinputs : ∀ v ∈ inputs, InW c.w v) (hfits : image.length ≤ c.addrMax + 1) :
    construct c image inputs = some { State.reset with
      cfg := c, mem := Memory.ofImage 0 image, ext := image.length, inq := inputs } :=
  if_pos ⟨himage, hinputs, hfits⟩

theorem construct_accepts {c : Config} {image inputs : List Int} {s : State} (h : construct c image inputs = some s) :
    (∀ v ∈ image, InW c.w v) ∧ (∀ v ∈ inputs, InW c.w v) ∧ image.length ≤ c.addrMax + 1 := by
  unfold construct at h
  split at h
  · assumption
  · cases h

/-- A program's image, at address 0, reads as its words and then 0 (R44). -/
theorem Memory.read_ofImage_zero (image : List Int) (a : Nat) : (Memory.ofImage 0 image).read a = image.getD a 0 := by
  rw [Memory.read_ofImage, if_pos (Nat.zero_le a), Nat.sub_zero]

/-- Settles O53: the image is loaded in canonical form, and a canonical memory is fixed by what it reads. -/
theorem constructSetsResetValues : Obligations.ConstructSetsResetValues := by
  intro c image inputs s
  constructor
  · intro h
    obtain ⟨himage, hinputs, hfits⟩ := construct_accepts h
    obtain rfl := Option.some.inj ((construct_of_accepted himage hinputs hfits).symm.trans h)
    exact ⟨⟨himage, hinputs, hfits⟩, rfl, Memory.ofImage_wf 0 image,
      Memory.read_ofImage_zero image, rfl, rfl, rfl, rfl, rfl, rfl⟩
  · obtain ⟨cfg, mem, ext, ip, rb, inq, log, es⟩ := s
    rintro ⟨⟨himage, hinputs, hfits⟩, rfl, hwf, hread, rfl, rfl, rfl, rfl, rfl, rfl⟩
    have hmem : mem = Memory.ofImage 0 image :=
      Memory.ext_of_read hwf (Memory.ofImage_wf 0 image) fun a =>
        (hread a).trans (Memory.read_ofImage_zero image a).symm
    rw [construct_of_accepted himage hinputs hfits, hmem]
    rfl

/-! ### push_input (R39) -/

theorem queueFull_eq_false_iff (s : State) :
    queueFull s = false ↔ ∀ cap, s.cfg.inqCap = some cap → s.inq.length < cap := by
  unfold queueFull
  cases s.cfg.inqCap <;> simp

/-- Settles O55: the push is guarded by the word range and the queue's capacity. -/
theorem pushAppendsAtTail : Obligations.PushAppendsAtTail := by
  intro v s t
  rw [← queueFull_eq_false_iff, ← and_assoc, eq_comm (a := t)]
  simp only [pushInput, Option.ite_none_right_eq_some, Option.some.injEq]

/-! ### Inspection and draining (R42, R43) -/

theorem peek_eq_some_iff (a : Int) (s : State) (v : Int) :
    peek a s = some v ↔ AddressOk s.cfg a ∧ v = s.readWord a.toNat := by
  simp only [peek, Option.ite_none_right_eq_some, Option.some.injEq, eq_comm (a := v)]

theorem transact_peek_keeps {a : Int} {s t : State} {r : Response} (h : transact (.peek a) s = some (t, r)) : t = s := by
  obtain ⟨v, _, hv⟩ := Option.map_eq_some_iff.mp h
  exact (Prod.mk.inj hv).1.symm

/-- Settles O56: each transaction is a reading of the state beside the state itself, and draining empties the log. -/
theorem inspectionAndDrain : Obligations.InspectionAndDrain := by
  intro s a v
  refine ⟨peek_eq_some_iff a s v, ⟨by simp [dump], fun x hx => by simp [dump, hx]⟩, fun x hx t r h => ?_, rfl, rfl⟩
  fin_cases hx
  · exact transact_peek_keeps h
  · cases h; rfl
  · cases h; rfl

/-! ### The status word (R33) -/

theorem statusWord_failed {s : State} {k : Failure} {fip : Nat} (h : s.es = .failed k fip) :
    statusWord s = (4, .failure k.kindCode fip k.info) := by
  simp only [statusWord, h]

/-- Settles O60: one clause for each execution state, and for Failed one for each kind. -/
theorem statusWordNumbers : Obligations.StatusWordNumbers := by
  intro s
  refine ⟨fun h => ?_, fun h => ?_, fun v h => ?_, fun h => ?_, fun _ _ => statusWord_failed,
    fun _ _ => statusWord_failed, fun _ _ => statusWord_failed, fun _ _ _ => statusWord_failed,
    fun _ _ => statusWord_failed, fun _ _ => statusWord_failed, fun _ _ => statusWord_failed,
    fun _ _ => statusWord_failed⟩
  all_goals simp only [statusWord, h]

/-! ### run (40_execution_cycle.md R99 to R101) -/

section Run

variable {s t : State}

theorem step_stepped (s : State) : step s = .next (stepped s) := by
  obtain ⟨t, ht⟩ := stepAlwaysAnswersNext s
  simp only [stepped, ht]

theorem step_eq_next_iff : step s = .next t ↔ stepped s = t := by
  rw [step_stepped]
  exact ⟨next_inj, fun h => h ▸ rfl⟩

theorem runsTo_of_terminal (hs : s.es.terminal = true) : RunsTo s t ↔ t = s := by simp [RunsTo, hs]

theorem runsTo_of_running (hs : s.es.terminal = false) : RunsTo s t ↔ RunLoop s t := by simp [RunsTo, hs]

theorem RunLoop.of_runLoop {fuel : Nat} (h : runLoop fuel s = some t) : RunLoop s t := by
  induction fuel generalizing s with
  | zero => cases h
  | succ fuel ih =>
    unfold runLoop at h
    split at h
    · rename_i hes
      exact .again (step_stepped s) hes (ih h)
    · rename_i hes
      exact .stop (Option.some.inj h ▸ step_stepped s) (Option.some.inj h ▸ hes)

theorem RunLoop.exists_fuel (h : RunLoop s t) : ∃ fuel, runLoop fuel s = some t := by
  induction h with
  | stop h hes =>
    obtain rfl := step_eq_next_iff.mp h
    exact ⟨1, if_neg hes⟩
  | again h hes _ ih =>
    obtain rfl := step_eq_next_iff.mp h
    obtain ⟨fuel, hfuel⟩ := ih
    exact ⟨fuel + 1, (if_pos hes).trans hfuel⟩

/-- A property that every step keeps holds where a run returns. -/
theorem RunsTo.keeps {P : State → Prop} (hstep : ∀ s t, P s → step s = .next t → P t) (h : RunsTo s t) (hs : P s) :
    P t := by
  rcases h with ⟨_, rfl⟩ | ⟨-, hloop⟩
  · exact hs
  · induction hloop with
    | stop h _ => exact hstep _ _ hs h
    | again h _ _ ih => exact ih (hstep _ _ hs h)

end Run

/-- Settles O57: the function's recursion and the relation's rules are the same two cases of a step. -/
theorem runUnderFuelIsRun : Obligations.RunUnderFuelIsRun := by
  intro s t
  cases hs : s.es.terminal with
  | true => simp [runsTo_of_terminal hs, runFor, hs, eq_comm]
  | false =>
    simp only [runsTo_of_running hs, runFor, hs, Bool.false_eq_true, if_false]
    exact ⟨RunLoop.exists_fuel, fun ⟨_, h⟩ => .of_runLoop h⟩

/-- Settles O58: the two rules of the loop, and a run from Continuing is the loop. -/
theorem runPerformsAStep : Obligations.RunPerformsAStep := by
  intro s t hs
  rw [runsTo_of_running hs]
  constructor
  · intro h
    cases h with
    | stop h hes => exact ⟨t, h, .inl ⟨hes, rfl⟩⟩
    | @again _ u _ h hes rest => exact ⟨u, h, .inr ⟨hes, (runsTo_of_running (by simp [hes])).mpr rest⟩⟩
  · rintro ⟨u, h, ⟨hes, rfl⟩ | ⟨hes, hrun⟩⟩
    · exact .stop h hes
    · exact .again h hes ((runsTo_of_running (by simp [hes])).mp hrun)

/-! ### The invariant under each transaction -/

theorem State.Inv.pushInput {s t : State} (h : s.Inv) {v : Int} (hp : pushInput v s = some t) : t.Inv := by
  obtain ⟨hv, _, rfl⟩ := (pushAppendsAtTail v s t).mp hp
  exact { h with inqWords := List.forall_mem_append.mpr ⟨h.inqWords, List.forall_mem_singleton.mpr hv⟩ }

theorem State.Inv.drainOutputLog {s : State} (h : s.Inv) : (drainOutputLog s).1.Inv :=
  { h with logWords := fun _ hv => nomatch hv }

theorem State.Inv.transact {x : Transaction} {s t : State} {r : Response} (h : s.Inv)
    (ht : transact x s = some (t, r)) : t.Inv := by
  cases x with
  | pushInput v =>
    obtain ⟨t', hp, ht'⟩ := Option.map_eq_some_iff.mp ht
    exact (Prod.mk.inj ht').1 ▸ h.pushInput hp
  | step =>
    cases ht
    exact stepKeepsInvariant s _ h (step_stepped s)
  | drainOutputLog =>
    cases ht
    exact h.drainOutputLog
  | peek a => exact transact_peek_keeps ht ▸ h
  | dump | status =>
    cases ht
    exact h

/-- Settles O47: a push appends a word, draining leaves no word to check, and `run` is a sequence of steps. -/
theorem transactionsKeepInvariant : Obligations.TransactionsKeepInvariant :=
  ⟨fun _ _ _ _ h ht => h.transact ht, fun _ _ h hrun => hrun.keeps stepKeepsInvariant h⟩

end Sys2Proof.Machine
